-- ==== Sys2Proof/Word.lean ====
section
/-! DEFINITION. The widths the spec gives the machine: 8-bit cells, registers and operand bytes, and the 9-bit PC. -/

namespace Sys2Proof

/-- A cell, a general register, an operand byte or an address: 8 bits, unsigned (R7, R12, R30). -/
abbrev Byte := BitVec 8

/-- A value of the program counter: 9 bits (R14). -/
abbrev PcWord := BitVec 9

end Sys2Proof
end

