-- ==== Sys2Proof/Config.lean ====
section
/-! DEFINITION. What is fixed for a run: the parameters the document fixes (R5) and the types of the two parameters
it leaves open, OPMAP and MAX_STEPS (R6, R11). The third open parameter, IMAGE, is an argument of `startRun`. -/

namespace Sys2Proof

/-- `MEM_SIZE` (R5, R30): the number of memory cells. -/
def Config.memSize : Nat := 256

/-- `DATA_LIMIT` (R5, R31): the first address past the Data Segment. -/
def Config.dataLimit : Nat := 8

/-- `RESET_PC` (R5, R21): the PC after reset. -/
def Config.resetPc : PcWord := 8

/-- `OP_HALT` (R5, R54): the only opcode byte the document gives. -/
def Config.opHalt : Byte := 0xFF

/-- `OPMAP` (R6, R54): the opcode bytes of the twelve instructions other than HALT. It is an argument of the model;
the constraint on it is `OpMap.WF`. -/
structure OpMap where
  load : Byte
  store : Byte
  add : Byte
  sub : Byte
  mul : Byte
  div : Byte
  rem : Byte
  addi : Byte
  subi : Byte
  jump : Byte
  beqz : Byte
  beq : Byte
  deriving DecidableEq, Repr

/-- The arguments of the model that are configuration and not state (R11): the opcode map, and the optional
instruction budget `MAX_STEPS` (R18), `none` when it is absent. -/
structure Params where
  opmap : OpMap
  maxSteps : Option Nat
  deriving DecidableEq, Repr

end Sys2Proof
end

