-- ==== Sys2Proof/Machine/State.lean ====
section
/-! DEFINITION. The architectural state (R10) as plain data, its value after reset (R21), and the two reasons a step
of the model could stop. -/

namespace Sys2Proof.Machine

/-- `STATUS`, the execution state (R16). -/
inductive Status where
  | running
  | halted
  | faulted
  deriving DecidableEq, Repr

/-- The fault kinds (R100), the values of `CAUSE` other than None. -/
inductive FaultKind where
  /-- a LOAD or STORE address of 8 or more (R101) -/
  | segmentationFault
  /-- the opcode byte at the PC is none of the thirteen (R102) -/
  | illegalOpcode
  /-- DIV or REM by zero (R103) -/
  | arithmeticFault
  /-- the PC, or a needed operand byte, outside the fetchable range (R104) -/
  | fetchOutOfBounds
  /-- a register operand byte that is not 1 or 2 (R105) -/
  | illegalRegister
  /-- `MAX_STEPS` instructions have completed and the run goes on (R106) -/
  | budgetExhausted
  deriving DecidableEq, Repr

/-- The 256 cells `MEM` (R30) as address and value pairs in one canonical form, `Memory.wf`. -/
abbrev Memory := List Host.Cell

/-- What a cell that is not listed reads as. The spec leaves a cell the host never wrote unspecified (R121, D13);
DESIGN CHOICE, unsafe, log 3. -/
def Memory.unlisted : Byte := 0

/-- The canonical form from address `lo` up: addresses strictly rising and below 256, and no value listed that an
unlisted cell reads as. -/
def Memory.wfFrom (lo : Nat) : Memory → Bool
  | [] => true
  | (k, v) :: m => decide (lo ≤ k) && decide (k < Config.memSize) && decide (v ≠ Memory.unlisted) && Memory.wfFrom (k + 1) m

/-- The canonical form of memory: equal memories are equal data. -/
def Memory.wf (m : Memory) : Bool := Memory.wfFrom 0 m

/-- The complete architectural state of the core (R10). -/
structure State where
  /-- the program counter (R14) -/
  pc : PcWord
  /-- general register R1 (R12) -/
  r1 : Byte
  /-- general register R2 (R12) -/
  r2 : Byte
  /-- the memory array (R30) -/
  mem : Memory
  /-- the execution state (R16) -/
  status : Status
  /-- the fault reason (R17); `none` is the spec's value None -/
  cause : Option FaultKind
  /-- the instructions completed in this run (R18), counted only when `MAX_STEPS` is given (DESIGN CHOICE, log 2) -/
  steps : Nat
  deriving DecidableEq, Repr

/-- The machine right after reset (R21), with no cell of memory listed. -/
def State.reset : State where
  pc := Config.resetPc
  r1 := 0
  r2 := 0
  mem := []
  status := .running
  cause := none
  steps := 0

/-- The reasons a step of the model could stop with no next state: there are none. Every fault of the spec is a state
(R108), which the machine takes, so no meaning and no step raises a fault of this type (DEDUCED, log 6; safe). -/
inductive Fault where
  deriving DecidableEq, Repr

/-- The reasons an instruction could be refused. -/
inductive Refusal where
  /-- The instruction with this mnemonic has no meaning in the model yet: raised by an arm of `exec` only, and no arm
  does, since every instruction of the table has its meaning (safe). -/
  | notModelled (mnemonic : String)
  deriving DecidableEq, Repr

end Sys2Proof.Machine
end

