-- ==== Sys2Proof/Machine/Alu.lean ====
section
/-! DEFINITION. The 8-bit arithmetic unit (R83 to R89): operands are read as unsigned integers, the result is computed
exactly and then reduced. DIV and REM answer ArithmeticFault where the divisor is zero. -/

namespace Sys2Proof.Machine

/-- `trunc8` (R8): an integer reduced modulo 256, negative ones included. -/
def trunc8 (v : Int) : Byte := BitVec.ofInt 8 v

/-- ADD and ADDI (R84, R90). -/
def aluAdd (a b : Byte) : Except FaultKind Byte := .ok (trunc8 ((a.toNat : Int) + (b.toNat : Int)))

/-- SUB and SUBI (R85, R91). -/
def aluSub (a b : Byte) : Except FaultKind Byte := .ok (trunc8 ((a.toNat : Int) - (b.toNat : Int)))

/-- MUL (R86): the low byte of the product. -/
def aluMul (a b : Byte) : Except FaultKind Byte := .ok (trunc8 ((a.toNat : Int) * (b.toNat : Int)))

/-- DIV (R87): the unsigned quotient, rounded toward zero. -/
def aluDiv (a b : Byte) : Except FaultKind Byte :=
  if b.toNat = 0 then .error .arithmeticFault else .ok (BitVec.ofNat 8 (a.toNat / b.toNat))

/-- REM (R88): the unsigned remainder. -/
def aluRem (a b : Byte) : Except FaultKind Byte :=
  if b.toNat = 0 then .error .arithmeticFault else .ok (BitVec.ofNat 8 (a.toNat - b.toNat * (a.toNat / b.toNat)))

end Sys2Proof.Machine
end

