-- ==== Sys2Proof/Syntax.lean ====
section
/-! DEFINITION. The instructions as syntax: one constructor for each row of spec/opcode_table.json, each carrying its
operand bytes (R75), and the names of the general registers and of the thirteen operations. -/

namespace Sys2Proof

/-- The two general registers (R12). The PC is no register operand (R13). -/
inductive Gpr where
  | r1
  | r2
  deriving DecidableEq, Repr

/-- The thirteen operations the opcode byte selects (R54), in the order of the table. -/
inductive Opcode where
  | halt
  | load
  | store
  | add
  | sub
  | mul
  | div
  | rem
  | addi
  | subi
  | jump
  | beqz
  | beq
  deriving DecidableEq, Repr

/-- A decoded instruction with its operand bytes as they stand in memory (R51, R75). A register operand is carried as
the raw byte; the instruction's meaning validates it (R55, R71 step 6). -/
inductive Instr where
  /-- HALT, layout H (R80) -/
  | halt
  /-- LOAD reg, addr, layout RA (R81) -/
  | load (reg addr : Byte)
  /-- STORE reg, addr, layout RA (R82) -/
  | store (reg addr : Byte)
  /-- ADD reg1, reg2, layout RR (R84) -/
  | add (reg1 reg2 : Byte)
  /-- SUB reg1, reg2, layout RR (R85) -/
  | sub (reg1 reg2 : Byte)
  /-- MUL reg1, reg2, layout RR (R86) -/
  | mul (reg1 reg2 : Byte)
  /-- DIV reg1, reg2, layout RR (R87) -/
  | div (reg1 reg2 : Byte)
  /-- REM reg1, reg2, layout RR (R88) -/
  | rem (reg1 reg2 : Byte)
  /-- ADDI reg, imm, layout RI (R90) -/
  | addi (reg imm : Byte)
  /-- SUBI reg, imm, layout RI (R91) -/
  | subi (reg imm : Byte)
  /-- JUMP target, layout J (R92) -/
  | jump (target : Byte)
  /-- BEQZ reg, offset, layout RO (R93) -/
  | beqz (reg offset : Byte)
  /-- BEQ reg, constant, offset, layout RCO (R94) -/
  | beq (reg constant offset : Byte)
  deriving DecidableEq, Repr

/-- The operation of an instruction. -/
def Instr.opcode : Instr → Opcode
  | .halt => .halt
  | .load _ _ => .load
  | .store _ _ => .store
  | .add _ _ => .add
  | .sub _ _ => .sub
  | .mul _ _ => .mul
  | .div _ _ => .div
  | .rem _ _ => .rem
  | .addi _ _ => .addi
  | .subi _ _ => .subi
  | .jump _ => .jump
  | .beqz _ _ => .beqz
  | .beq _ _ _ => .beq

/-- The register operand bytes of an instruction (R55): byte 1 of layouts RA, RI, RO and RCO, bytes 1 and 2 of RR. -/
def Instr.registerBytes : Instr → List Byte
  | .halt => []
  | .load reg _ => [reg]
  | .store reg _ => [reg]
  | .add reg1 reg2 => [reg1, reg2]
  | .sub reg1 reg2 => [reg1, reg2]
  | .mul reg1 reg2 => [reg1, reg2]
  | .div reg1 reg2 => [reg1, reg2]
  | .rem reg1 reg2 => [reg1, reg2]
  | .addi reg _ => [reg]
  | .subi reg _ => [reg]
  | .jump _ => []
  | .beqz reg _ => [reg]
  | .beq reg _ _ => [reg]

end Sys2Proof
end

