-- ==== Sys2Proof/Decode.lean ====
section
/-! DEFINITION. Decoding (R50 to R58, R71 steps 2 to 4), total on any bytes and rejecting by name; then the encoder,
written from the same layouts. The numbers the spec decides or gives as defaults (slot indices, opcode bytes) stand
here too. -/

namespace Sys2Proof

/-- `OPMAP`'s default (R54, decision D1): 0x01 to 0x0C in the order of the opcode table.
DESIGN CHOICE: `step` takes this default (log 1). -/
def defaultOpMap : OpMap where
  load := 0x01
  store := 0x02
  add := 0x03
  sub := 0x04
  mul := 0x05
  div := 0x06
  rem := 0x07
  addi := 0x08
  subi := 0x09
  jump := 0x0A
  beqz := 0x0B
  beq := 0x0C

/-- The parameters' defaults (R6): the default opcode map, and no instruction budget.
DESIGN CHOICE: `step` takes them (log 1, log 2). -/
def defaultParams : Params where
  opmap := defaultOpMap
  maxSteps := none

/-- The slot index that names a general register in an operand byte: `IDX_R1`, `IDX_R2` (R13, decision D2). -/
def Gpr.index : Gpr → Byte
  | .r1 => 1
  | .r2 => 2

/-- The general register an operand byte names, if any (R55). Slot 0, the PC's, and 3 to 255 name none. -/
def gprOf (b : Byte) : Option Gpr :=
  if b = Gpr.index .r1 then some .r1
  else if b = Gpr.index .r2 then some .r2
  else none

/-- The opcode byte of an operation (R54). -/
def OpMap.byteOf (m : OpMap) : Opcode → Byte
  | .halt => Config.opHalt
  | .load => m.load
  | .store => m.store
  | .add => m.add
  | .sub => m.sub
  | .mul => m.mul
  | .div => m.div
  | .rem => m.rem
  | .addi => m.addi
  | .subi => m.subi
  | .jump => m.jump
  | .beqz => m.beqz
  | .beq => m.beq

/-- The rows of the opcode table (R54), in its order. -/
def opcodeTable : List Opcode :=
  [.halt, .load, .store, .add, .sub, .mul, .div, .rem, .addi, .subi, .jump, .beqz, .beq]

/-- The operation an opcode byte selects, the whole byte compared (R54); `none` is the one illegal case (R57). -/
def OpMap.recognise (m : OpMap) (b : Byte) : Option Opcode :=
  opcodeTable.find? (fun op => decide (m.byteOf op = b))

/-- The slot width, by which the PC advances (R52): 4 for BEQ and 3 for every other opcode, HALT included. -/
def Opcode.width : Opcode → Nat
  | .beq => 4
  | _ => 3

/-- The bytes of an instruction that are read, the opcode byte included (R53). -/
def Opcode.need : Opcode → Nat
  | .halt => 1
  | .jump => 2
  | .beq => 4
  | _ => 3

/-- Why bytes are no instruction. -/
inductive DecodeError where
  /-- the opcode byte is none of the thirteen (R57) -/
  | illegalOpcode
  /-- the bytes end before the last needed one (R39) -/
  | operandsMissing
  deriving DecidableEq, Repr

/-- The instruction of a recognised operation, from the bytes after the opcode byte (R51): each operand at its
position, and none beyond the needed ones looked at. -/
def decodeOperands : Opcode → List Byte → Except DecodeError Instr
  | .halt, _ => .ok .halt
  | .load, b1 :: b2 :: _ => .ok (.load b1 b2)
  | .store, b1 :: b2 :: _ => .ok (.store b1 b2)
  | .add, b1 :: b2 :: _ => .ok (.add b1 b2)
  | .sub, b1 :: b2 :: _ => .ok (.sub b1 b2)
  | .mul, b1 :: b2 :: _ => .ok (.mul b1 b2)
  | .div, b1 :: b2 :: _ => .ok (.div b1 b2)
  | .rem, b1 :: b2 :: _ => .ok (.rem b1 b2)
  | .addi, b1 :: b2 :: _ => .ok (.addi b1 b2)
  | .subi, b1 :: b2 :: _ => .ok (.subi b1 b2)
  | .jump, b1 :: _ => .ok (.jump b1)
  | .beqz, b1 :: b2 :: _ => .ok (.beqz b1 b2)
  | .beq, b1 :: b2 :: b3 :: _ => .ok (.beq b1 b2 b3)
  | _, _ => .error .operandsMissing

/-- Decode the bytes from an instruction's first address up to the end of memory, or as many of them as the longest
instruction has (R71 steps 2 to 4): an unrecognised opcode byte is rejected before any operand byte is needed. -/
def decode (m : OpMap) : List Byte → Except DecodeError Instr
  | [] => .error .operandsMissing
  | b :: rest =>
    match m.recognise b with
    | none => .error .illegalOpcode
    | some op => decodeOperands op rest

/-- The bytes of an instruction's slot (R51). Padding and unused bytes are 0x00, the spec's listing convention (R59);
they are never read (DESIGN CHOICE, log 7). -/
def encode (m : OpMap) : Instr → List Byte
  | .halt => [Config.opHalt, 0, 0]
  | .load reg addr => [m.load, reg, addr]
  | .store reg addr => [m.store, reg, addr]
  | .add reg1 reg2 => [m.add, reg1, reg2]
  | .sub reg1 reg2 => [m.sub, reg1, reg2]
  | .mul reg1 reg2 => [m.mul, reg1, reg2]
  | .div reg1 reg2 => [m.div, reg1, reg2]
  | .rem reg1 reg2 => [m.rem, reg1, reg2]
  | .addi reg imm => [m.addi, reg, imm]
  | .subi reg imm => [m.subi, reg, imm]
  | .jump target => [m.jump, target, 0]
  | .beqz reg offset => [m.beqz, reg, offset]
  | .beq reg constant offset => [m.beq, reg, constant, offset]

/-- The four bytes, as many as the longest instruction has, of an instruction whose bits are `w`: the first byte is
the lowest eight bits, and every bit from `nbits` up is 0 (DEDUCED, log 9). -/
def bytesOfTableWord (nbits w : Nat) : List Byte :=
  let v := w % 2 ^ nbits
  [BitVec.ofNat 8 v, BitVec.ofNat 8 (v / 2 ^ 8), BitVec.ofNat 8 (v / 2 ^ 16), BitVec.ofNat 8 (v / 2 ^ 24)]

/-- What the decoder, with the default opcode map, reads from an instruction whose bits are `w`, numbered as
spec/opcode_table.json's `fixed` numbers them. -/
def decodeTableWord (nbits w : Nat) : Option Instr :=
  match decode defaultOpMap (bytesOfTableWord nbits w) with
  | .ok i => some i
  | .error _ => none

end Sys2Proof
end

