-- ==== Sys2Proof/Machine/Ops.lean ====
section
/-! DEFINITION. The named operations over memory, registers and the PC: reading and writing a cell, the two data
guards, the register file, taking a fault, and completing an instruction. -/

namespace Sys2Proof.Machine

/-- The value of cell `a`, no guard applied (R8 `MEM[a]`). -/
def Memory.read : Memory → Byte → Byte
  | [], _ => Memory.unlisted
  | (k, v) :: m, a => if k = a.toNat then v else Memory.read m a

/-- Memory with cell `a` no longer listed. -/
def Memory.erase : Memory → Byte → Memory
  | [], _ => []
  | (k, v) :: m, a => if k = a.toNat then Memory.erase m a else (k, v) :: Memory.erase m a

/-- Memory with the pair for an unlisted cell `a` put in its place. -/
def Memory.insert : Memory → Byte → Byte → Memory
  | [], a, x => [(a.toNat, x)]
  | (k, v) :: m, a, x => if a.toNat < k then (a.toNat, x) :: (k, v) :: m else (k, v) :: Memory.insert m a x

/-- Write cell `a` and no other, no guard applied (R8, R40), keeping the canonical form. -/
def Memory.write (m : Memory) (a x : Byte) : Memory :=
  if x = Memory.unlisted then m.erase a else (m.erase a).insert a x

/-- Write consecutive bytes upwards from address `a`, as far as memory goes. -/
def Memory.writeBytes (m : Memory) (a : Nat) : List Byte → Memory
  | [] => m
  | b :: bs => if a < Config.memSize then Memory.writeBytes (m.write (BitVec.ofNat 8 a) b) (a + 1) bs else m

/-- Read a general register (R8 `x[i]`). -/
def State.gpr (s : State) : Gpr → Byte
  | .r1 => s.r1
  | .r2 => s.r2

/-- Write a general register (R8 `x[i] <- v`). -/
def State.setGpr (s : State) (d : Gpr) (v : Byte) : State :=
  match d with
  | .r1 => { s with r1 := v }
  | .r2 => { s with r2 := v }

/-- Write the PC. -/
def State.setPc (s : State) (v : PcWord) : State := { s with pc := v }

/-- Write memory whole. -/
def State.setMem (s : State) (m : Memory) : State := { s with mem := m }

/-- Take a fault (R108): STATUS becomes FAULTED and CAUSE the kind; PC, R1, R2, memory and STEPS keep their values.
There is no handler and no return (R110): the machine takes no step from there (R73). -/
def State.raise (s : State) (k : FaultKind) : State := { s with status := .faulted, cause := some k }

/-- Stop successfully (R80): STATUS becomes HALTED and nothing else changes. -/
def State.halt (s : State) : State := { s with status := .halted }

/-- Go on with a value, or take the fault at the state the instruction began in, with no other effect (R72). -/
def State.orRaise {α : Type} (s : State) (r : Except FaultKind α) (go : α → State) : State :=
  match r with
  | .ok a => go a
  | .error k => s.raise k

/-- `MemRead(a, 1)` (R37): the read-bound guard, then the cell. -/
def memRead (s : State) (a : Byte) : Except FaultKind Byte :=
  if Config.dataLimit ≤ a.toNat then .error .segmentationFault else .ok (s.mem.read a)

/-- `MemWrite(a, 1, v)` (R36): the write guard, then the write. -/
def memWrite (s : State) (a v : Byte) : Except FaultKind State :=
  if Config.dataLimit ≤ a.toNat then .error .segmentationFault else .ok (s.setMem (s.mem.write a v))

/-- The post-advance PC `npc = PC + width` (R15, R71 step 5). At every instruction that is fetched it is at most 259
and the nine bits hold it with no reduction (DEDUCED, log 8, for other PCs). -/
def npc (s : State) (op : Opcode) : PcWord := s.pc + BitVec.ofNat 9 op.width

/-- Complete an instruction that goes on in sequence: `PC <- npc` (R15). -/
def State.advance (s : State) (op : Opcode) : State := s.setPc (npc s op)

end Sys2Proof.Machine
end

