-- ==== Sys2Proof/Machine/Operands.lean ====
section
/-! DEFINITION. The operand forms: a register operand byte (R55), an absolute target and a relative offset (R56,
R95). Addresses, immediates and constants are used as they are. -/

namespace Sys2Proof.Machine

/-- A register operand byte, validated: IllegalRegister where it names no general register (R55, R105). -/
def regOperand (b : Byte) : Except FaultKind Gpr :=
  match gprOf b with
  | some g => .ok g
  | none => .error .illegalRegister

/-- The two register operand bytes of layout RR, both validated before either is used (R55). -/
def regOperands (b1 b2 : Byte) : Except FaultKind (Gpr × Gpr) :=
  match gprOf b1, gprOf b2 with
  | some d, some r => .ok (d, r)
  | _, _ => .error .illegalRegister

/-- `zext_9` (R8): an operand byte widened to the PC's nine bits with zero high bits; never sign-extended (R56). -/
def zext9 (b : Byte) : PcWord := b.setWidth 9

/-- The target of a taken relative branch (R95): the post-advance PC plus the unsigned offset, not reduced modulo 256. -/
def branchTarget (s : State) (op : Opcode) (offset : Byte) : PcWord := npc s op + zext9 offset

end Sys2Proof.Machine
end

