-- ==== Sys2Proof/Machine/ArithImmediate.lean ====
section
/-! DEFINITION. The meanings of ADDI and SUBI (R90, R91). -/

namespace Sys2Proof.Machine

/-- A register-immediate instruction: the register byte is validated, and the arithmetic unit's second operand is the
immediate byte, used as it is (R56). -/
def arithImmediate (op : Opcode) (f : Byte → Byte → Except FaultKind Byte) (reg imm : Byte) (s : State) : State :=
  s.orRaise (regOperand reg) fun d =>
    s.orRaise (f (s.gpr d) imm) fun v =>
      (s.setGpr d v).advance op

/-- ADDI reg, imm (R90). -/
def execAddi (reg imm : Byte) (s : State) : Host.Outcome State Fault Refusal :=
  .next (arithImmediate .addi aluAdd reg imm s)

/-- SUBI reg, imm (R91). -/
def execSubi (reg imm : Byte) (s : State) : Host.Outcome State Fault Refusal :=
  .next (arithImmediate .subi aluSub reg imm s)

end Sys2Proof.Machine
end

