-- ==== Sys2Proof/Machine/ArithRegister.lean ====
section
/-! DEFINITION. The meanings of ADD, SUB, MUL, DIV and REM (R83 to R88). -/

namespace Sys2Proof.Machine

/-- What the five register-register instructions have in common (R83): both register bytes are validated, both sources
read before the destination is written, and the result of the arithmetic unit goes to the first. -/
def arithRegister (op : Opcode) (f : Byte → Byte → Except FaultKind Byte) (reg1 reg2 : Byte) (s : State) : State :=
  s.orRaise (regOperands reg1 reg2) fun p =>
    s.orRaise (f (s.gpr p.1) (s.gpr p.2)) fun v =>
      (s.setGpr p.1 v).advance op

/-- ADD reg1, reg2 (R84). -/
def execAdd (reg1 reg2 : Byte) (s : State) : Host.Outcome State Fault Refusal :=
  .next (arithRegister .add aluAdd reg1 reg2 s)

/-- SUB reg1, reg2 (R85). -/
def execSub (reg1 reg2 : Byte) (s : State) : Host.Outcome State Fault Refusal :=
  .next (arithRegister .sub aluSub reg1 reg2 s)

/-- MUL reg1, reg2 (R86). -/
def execMul (reg1 reg2 : Byte) (s : State) : Host.Outcome State Fault Refusal :=
  .next (arithRegister .mul aluMul reg1 reg2 s)

/-- DIV reg1, reg2 (R87): ArithmeticFault where the divisor register holds 0. -/
def execDiv (reg1 reg2 : Byte) (s : State) : Host.Outcome State Fault Refusal :=
  .next (arithRegister .div aluDiv reg1 reg2 s)

/-- REM reg1, reg2 (R88): ArithmeticFault where the divisor register holds 0. -/
def execRem (reg1 reg2 : Byte) (s : State) : Host.Outcome State Fault Refusal :=
  .next (arithRegister .rem aluRem reg1 reg2 s)

end Sys2Proof.Machine
end

