-- ==== Sys2Proof/Machine/Flags.lean ====
section
/-! DEFINITION. The hardware has no flags and no condition codes (R20), so no instruction computes one. What stands in
their place is the relative-jump comparator: the conditions BEQZ and BEQ compute at the moment they execute. -/

namespace Sys2Proof.Machine

/-- BEQZ's condition (R93): all eight bits of the register are zero. -/
def isZero (v : Byte) : Bool := decide (v = 0)

/-- BEQ's condition (R94): equality of two unsigned 8-bit values. -/
def isEqual (v constant : Byte) : Bool := decide (v = constant)

end Sys2Proof.Machine
end

