-- ==== Sys2Proof/Machine/ControlTransfer.lean ====
section
/-! DEFINITION. The meanings of JUMP, BEQZ and BEQ (R92 to R95). No target is checked here: a PC outside 8 to 255
faults at the next fetch. -/

namespace Sys2Proof.Machine

/-- A conditional relative branch (R93 to R95): the register byte is validated whether or not the branch is taken. -/
def branchIf (op : Opcode) (cond : Byte → Bool) (reg offset : Byte) (s : State) : State :=
  s.orRaise (regOperand reg) fun r =>
    if cond (s.gpr r) then s.setPc (branchTarget s op offset) else s.advance op

/-- JUMP target (R92): absolute; the post-advance PC is discarded. -/
def execJump (target : Byte) (s : State) : Host.Outcome State Fault Refusal := .next (s.setPc (zext9 target))

/-- BEQZ reg, offset (R93). -/
def execBeqz (reg offset : Byte) (s : State) : Host.Outcome State Fault Refusal :=
  .next (branchIf .beqz isZero reg offset s)

/-- BEQ reg, constant, offset (R94). -/
def execBeq (reg constant offset : Byte) (s : State) : Host.Outcome State Fault Refusal :=
  .next (branchIf .beq (fun v => isEqual v constant) reg offset s)

end Sys2Proof.Machine
end

