-- ==== Sys2Proof/Machine/LoadStore.lean ====
section
/-! DEFINITION. The meanings of LOAD and STORE (R81, R82), the only instructions that access memory as data. -/

namespace Sys2Proof.Machine

/-- LOAD reg, addr (R81): the register byte is validated first, then the read-bound guard. -/
def execLoad (reg addr : Byte) (s : State) : Host.Outcome State Fault Refusal :=
  .next (s.orRaise (regOperand reg) fun d =>
    s.orRaise (memRead s addr) fun v =>
      (s.setGpr d v).advance .load)

/-- STORE reg, addr (R82): the register byte is validated first, then the write guard, before anything is written. -/
def execStore (reg addr : Byte) (s : State) : Host.Outcome State Fault Refusal :=
  .next (s.orRaise (regOperand reg) fun r =>
    s.orRaise (memWrite s addr (s.gpr r)) fun t =>
      t.advance .store)

end Sys2Proof.Machine
end

