-- ==== Sys2Proof/Machine/System.lean ====
section
/-! DEFINITION. The meaning of HALT (R80), the only system instruction. -/

namespace Sys2Proof.Machine

/-- HALT (R80): STATUS becomes HALTED; PC, R1, R2, memory and CAUSE keep their values. -/
def execHalt (s : State) : Host.Outcome State Fault Refusal := .next s.halt

end Sys2Proof.Machine
end

