-- ==== Sys2Proof/Machine/Dispatch.lean ====
section
/-! DEFINITION. `Execute` (R71 step 7, R76): one arm for each instruction, each one call of its meaning. -/

namespace Sys2Proof.Machine

def exec (i : Instr) (s : State) : Host.Outcome State Fault Refusal :=
  match i with
  | .halt => Sys2Proof.Machine.execHalt s
  | .load reg addr => Sys2Proof.Machine.execLoad reg addr s
  | .store reg addr => Sys2Proof.Machine.execStore reg addr s
  | .add reg1 reg2 => Sys2Proof.Machine.execAdd reg1 reg2 s
  | .sub reg1 reg2 => Sys2Proof.Machine.execSub reg1 reg2 s
  | .mul reg1 reg2 => Sys2Proof.Machine.execMul reg1 reg2 s
  | .div reg1 reg2 => Sys2Proof.Machine.execDiv reg1 reg2 s
  | .rem reg1 reg2 => Sys2Proof.Machine.execRem reg1 reg2 s
  | .addi reg imm => Sys2Proof.Machine.execAddi reg imm s
  | .subi reg imm => Sys2Proof.Machine.execSubi reg imm s
  | .jump target => Sys2Proof.Machine.execJump target s
  | .beqz reg offset => Sys2Proof.Machine.execBeqz reg offset s
  | .beq reg constant offset => Sys2Proof.Machine.execBeq reg constant offset s

end Sys2Proof.Machine
end

