-- ==== Sys2Proof/Machine/Fetch.lean ====
section
/-! DEFINITION. Fetching: the fetch guard (R38), the bytes at the PC, and the instruction they are or the fault their
fetch raises (R71 steps 1 to 4). -/

namespace Sys2Proof.Machine

/-- `FETCH_LOW` (R6, decision D4): the lowest address an instruction may be fetched from. -/
def fetchLow : Nat := 8

/-- The fetch guard (R38) lets this PC pass. -/
def fetchable (pc : PcWord) : Bool := decide (fetchLow ≤ pc.toNat) && decide (pc.toNat < Config.memSize)

/-- The bytes at `a`, `a + 1`, … in ascending order, at most `n` of them and none past the end of memory (R39). -/
def bytesAt (m : Memory) (a : Nat) : Nat → List Byte
  | 0 => []
  | n + 1 => if a < Config.memSize then m.read (BitVec.ofNat 8 a) :: bytesAt m (a + 1) n else []

/-- The bytes at the PC, as many as the longest instruction has. Reading a cell has no side effect (R40), and the decoder looks
at no byte beyond the needed ones (R53). -/
def window (s : State) : List Byte := bytesAt s.mem s.pc.toNat 4

/-- The fault a rejection by the decoder raises: IllegalOpcode (R102), or FetchOutOfBounds by the operand-fetch bound (R39,
R104). -/
def faultOfDecode : DecodeError → FaultKind
  | .illegalOpcode => .illegalOpcode
  | .operandsMissing => .fetchOutOfBounds

/-- Fetch and decode the instruction at the PC (R71 steps 1 to 4), in the order of R107. -/
def fetch (m : OpMap) (s : State) : Except FaultKind Instr :=
  if fetchable s.pc then
    match decode m (window s) with
    | .ok i => .ok i
    | .error e => .error (faultOfDecode e)
  else .error .fetchOutOfBounds

end Sys2Proof.Machine
end

