-- ==== Sys2Proof/Machine/Cycle.lean ====
section
/-! DEFINITION. The step function of the core (R70 to R74) for any parameters: the terminal states, the budget, the
fetch, the dispatch and the count. -/

namespace Sys2Proof.Machine

/-- `MAX_STEPS` is given and `STEPS` has reached it (R74). The spec tests equality, and STEPS, which starts at 0 and counts by
one, never passes it. -/
def budgetSpent (p : Params) (s : State) : Bool := decide (p.maxSteps = some s.steps)

/-- Count a completed instruction (R18, R71 step 8), only when `MAX_STEPS` is given; a faulting one is not counted. -/
def countStep (p : Params) (t : State) : State :=
  match t.status, p.maxSteps with
  | .faulted, _ => t
  | _, none => t
  | _, some _ => { t with steps := t.steps + 1 }

/-- One step of the core (R71). In a terminal state the core does nothing (R73): the
step answers the state as it is (DESIGN CHOICE, log 5; safe). -/
def cycle (p : Params) (s : State) : Host.Outcome State Fault Refusal :=
  match s.status with
  | .halted => .next s
  | .faulted => .next s
  | .running =>
    if budgetSpent p s then .next (s.raise .budgetExhausted)
    else
      match fetch p.opmap s with
      | .error k => .next (s.raise k)
      | .ok i =>
        match exec i s with
        | .next t => .next (countStep p t)
        | .fault f => .fault f
        | .refused r => .refused r

/-- `n` steps of the core with the parameters `p` (R70). -/
def cycles (p : Params) : Nat → State → Host.Outcome State Fault Refusal
  | 0, s => .next s
  | n + 1, s =>
    match cycle p s with
    | .next t => cycles p n t
    | .fault f => .fault f
    | .refused r => .refused r

end Sys2Proof.Machine
end

