-- ==== Sys2Proof/Machine/Step.lean ====
section
/-! DEFINITION. One step of the machine with the parameters' defaults, and the state with a given instruction placed where that
step fetches. -/

namespace Sys2Proof.Machine

/-- One step (R71) with the default opcode map and no budget (log 1, log 2). For other parameters it is `cycle`. -/
def step (s : State) : Host.Outcome State Fault Refusal := cycle defaultParams s

/-- The state with the instruction whose bits are `w` (numbered as spec/opcode_table.json numbers them, every bit from `nbits`
up zero) stored at the PC; it stands for the host's load of a program (log 4). -/
def State.withFetchWord (s : State) (nbits w : Nat) : State :=
  s.setMem (s.mem.writeBytes s.pc.toNat (bytesOfTableWord nbits w))

end Sys2Proof.Machine
end

