-- ==== Sys2Proof/Machine/HostPort.lean ====
section
/-! DEFINITION. The host interface (R113, R120 to R123). The host reads STATUS and CAUSE at any time (R16, R17). Its other moves
are made before and after a run: while one is in progress it does not touch memory and does not reset the core (R42, R122), and
there those operations answer `none`. -/

namespace Sys2Proof.Machine

/-- Reset (R120, R121): PC, R1, R2, STATUS, CAUSE and STEPS at their reset values, memory not touched. -/
def State.afterReset (s : State) : State := { State.reset with mem := s.mem }

/-- The memory that holds these bytes from address `a` up and nothing else. -/
def Memory.ofBytes (a : Nat) : List Byte → Memory
  | [] => []
  | b :: bs => if b = Memory.unlisted then Memory.ofBytes (a + 1) bs else (a, b) :: Memory.ofBytes (a + 1) bs

/-- Steps 1 to 3 of the host contract (R122): load `IMAGE`, exactly 256 bytes (R121), and release reset. -/
def startRun (image : List Byte) : Option State :=
  if image.length = Config.memSize then some { State.reset with mem := Memory.ofBytes 0 image } else none

/-- A run has ended: STATUS is HALTED or FAULTED (R73, R123). -/
def State.terminal (s : State) : Bool := decide (s.status ≠ .running)

/-- A new run over the memory the last one left (R22, R110): only a reset leaves a terminal state (R73). -/
def restart (s : State) : Option State := if s.terminal then some s.afterReset else none

/-- The host writes a cell between runs (R33 (d), R42). -/
def hostWrite (a v : Byte) (s : State) : Option State := if s.terminal then some (s.setMem (s.mem.write a v)) else none

/-- The host reads a cell after a run (R42). -/
def hostRead (a : Byte) (s : State) : Option Byte := if s.terminal then some (s.mem.read a) else none

/-- The host reads STATUS, at any time, also while a run is in progress (R16). It has no operation that writes it but a
reset. -/
def hostStatus (s : State) : Status := s.status

/-- The host reads CAUSE, at any time (R17). It has no operation that writes it but a reset. -/
def hostCause (s : State) : Option FaultKind := s.cause

/-- The result of a run (R123): final memory, STATUS and CAUSE. PC, R1 and R2 are not part of it (R22). -/
structure RunResult where
  mem : Memory
  status : Status
  cause : Option FaultKind
  deriving DecidableEq, Repr

/-- What the host observes of a run that has ended (R113). -/
def runResult (s : State) : Option RunResult := if s.terminal then some ⟨s.mem, s.status, s.cause⟩ else none

/-- `STATUS` as its two bits (R16). -/
def Status.code : Status → BitVec 2
  | .running => 0
  | .halted => 1
  | .faulted => 2

/-- `CAUSE` as its three bits (R17, R100). -/
def causeCode : Option FaultKind → BitVec 3
  | none => 0
  | some .segmentationFault => 1
  | some .illegalOpcode => 2
  | some .arithmeticFault => 3
  | some .fetchOutOfBounds => 4
  | some .illegalRegister => 5
  | some .budgetExhausted => 6

end Sys2Proof.Machine
end

