-- ==== Sys2Proof/WellFormed.lean ====
section
/-! DEFINITION. What makes an instruction and an opcode map well formed: register operand bytes that name a general
register (R55), and thirteen pairwise distinct opcode bytes (R54). -/

namespace Sys2Proof

/-- `ValidReg` (R55): the operand byte names a general register. -/
abbrev validReg (b : Byte) : Prop := (gprOf b).isSome = true

/-- Every register operand byte of the instruction names a general register (R55). Every value of an address,
immediate, target, constant or offset is legal to encode (R58). -/
abbrev Instr.WellFormed (i : Instr) : Prop := ∀ b ∈ i.registerBytes, validReg b

/-- The constraint on `OPMAP` (R6, R54): the thirteen opcode bytes, HALT's among them, are pairwise distinct. -/
abbrev OpMap.WF (m : OpMap) : Prop := (opcodeTable.map m.byteOf).Nodup

end Sys2Proof
end

