-- ==== Sys2Proof/Safety.lean ====
section
/-! DEFINITION. The terms claims are stated in: what an instruction leaves unchanged, what a fault leaves, the invariant of
the machine, and when a run ends and succeeds. -/

namespace Sys2Proof.Machine

/-- The operand byte `reg` names the general register `d` (R13, R55): 1 is R1 and 2 is R2. -/
def Names (reg : Byte) (d : Gpr) : Prop := (reg = 1 ∧ d = .r1) ∨ (reg = 2 ∧ d = .r2)

/-- The operand byte `reg` names no general register (R55): it is neither 1 nor 2. -/
def NamesNone (reg : Byte) : Prop := reg ≠ 1 ∧ reg ≠ 2

/-- The value of the cell at address `a`, for an address below 256. -/
def cellAt (s : State) (a : Nat) : Byte := s.mem.read (BitVec.ofNat 8 a)

/-- Every cell of memory reads the same in both states. -/
def SameMemory (s t : State) : Prop := ∀ a : Byte, t.mem.read a = s.mem.read a

/-- The execution state, the fault reason and the step counter are the same in both states. -/
def SameControl (s t : State) : Prop := t.status = s.status ∧ t.cause = s.cause ∧ t.steps = s.steps

/-- From `s` to `t` nothing but the PC changes. -/
def OnlyPcChanges (s t : State) : Prop := t.r1 = s.r1 ∧ t.r2 = s.r2 ∧ SameMemory s t ∧ SameControl s t

/-- From `s` to `t` nothing but the register `d` and the PC changes. -/
def OnlyGprAndPcChange (d : Gpr) (s t : State) : Prop :=
  (∀ g : Gpr, g ≠ d → t.gpr g = s.gpr g) ∧ SameMemory s t ∧ SameControl s t

/-- From `s` to `t` nothing but the cell `a` and the PC changes. -/
def OnlyCellAndPcChange (a : Byte) (s t : State) : Prop :=
  t.r1 = s.r1 ∧ t.r2 = s.r2 ∧ (∀ b : Byte, b ≠ a → t.mem.read b = s.mem.read b) ∧ SameControl s t

/-- `t` is `s` after taking the fault `k` (R108): FAULTED for that reason, and nothing else changed. -/
def FaultTaken (k : FaultKind) (s t : State) : Prop :=
  t.status = .faulted ∧ t.cause = some k ∧ t.pc = s.pc ∧ t.r1 = s.r1 ∧ t.r2 = s.r2 ∧ SameMemory s t ∧ t.steps = s.steps

/-- The instruction `i`, executed at `s`, takes the fault `k`. -/
def ExecFaults (i : Instr) (s : State) (k : FaultKind) : Prop := ∃ t, exec i s = .next t ∧ FaultTaken k s t

/-- The step at `s`, with the parameters `p`, takes the fault `k`. -/
def CycleFaults (p : Params) (s : State) (k : FaultKind) : Prop := ∃ t, cycle p s = .next t ∧ FaultTaken k s t

/-- The two states differ at most in the Program Segment. -/
def SameButProgram (s t : State) : Prop :=
  t.pc = s.pc ∧ t.r1 = s.r1 ∧ t.r2 = s.r2 ∧ SameControl s t ∧ ∀ a : Byte, a.toNat < 8 → t.mem.read a = s.mem.read a

/-- The invariant of the machine: memory is in canonical form, and CAUSE holds a fault kind exactly when STATUS is
FAULTED (R17). -/
def State.Inv (s : State) : Prop := s.mem.wf = true ∧ (s.cause.isSome = true ↔ s.status = .faulted)

/-- No more instructions have completed than the budget allows, where there is one (R74). -/
def WithinBudget (p : Params) (s : State) : Prop := ∀ n, p.maxSteps = some n → s.steps ≤ n

/-- The next step is a fetch: the run is in progress and the budget is not spent (R71 steps 0 and 1). -/
def Fetching (p : Params) (s : State) : Prop := s.status = .running ∧ p.maxSteps ≠ some s.steps

/-- The needed bytes of the instruction `i` stand at the PC, at fetchable addresses (R38, R39, R53). -/
def InstructionAtPc (m : OpMap) (i : Instr) (s : State) : Prop :=
  8 ≤ s.pc.toNat ∧ s.pc.toNat + i.opcode.need ≤ 256 ∧
    ∀ k, k < i.opcode.need → (encode m i)[k]? = some (cellAt s (s.pc.toNat + k))

/-- The run from `s` ends in `t` (R123): some number of steps reaches `t`, and `t` is terminal. -/
def RunEnds (p : Params) (s t : State) : Prop := (∃ n, cycles p n s = .next t) ∧ t.terminal = true

/-- A safe run: it ends, and it ends HALTED (R123). -/
def RunSucceeds (p : Params) (s : State) : Prop := ∃ t, RunEnds p s t ∧ t.status = .halted

end Sys2Proof.Machine
end

