-- ==== Sys2Proof/Certificates/Slice0/Obligations.lean ====
section
/-! DEFINITION. The statements for the provers. Each is about every state and operand the spec allows, and where it speaks of
opcode bytes, about every legal opcode map. -/

open Sys2Proof Sys2Proof.Machine

/-- Decode and encode agree on every instruction, every operand value and every legal opcode map (30_encoding.md sections 1 and 2). The bytes used for padding are log 7's choice; the decoder reads none of them. -/
def Obligations.DecodeEncodeAgree : Prop :=
    ∀ (m : OpMap) (i : Instr) (rest : List Byte), m.WF → decode m (encode m i ++ rest) = .ok i

/-- No needed byte is dropped by decoding (30_encoding.md section 1; how many bytes are needed is decision D7). -/
def Obligations.EncodeDecodeAgree : Prop :=
    ∀ (m : OpMap) (bs : List Byte) (i : Instr), decode m bs = .ok i →
    i.opcode.need ≤ bs.length ∧ bs.take i.opcode.need = (encode m i).take i.opcode.need

/-- Padding and unused bytes are ignored (30_encoding.md section 4; how many bytes are needed is decision D7). -/
def Obligations.UnusedBytesIgnored : Prop :=
    ∀ (m : OpMap) (bs bs' : List Byte) (i : Instr), decode m bs = .ok i →
    bs'.take i.opcode.need = bs.take i.opcode.need → decode m bs' = .ok i

/-- The illegal opcodes are exactly the bytes outside the map (30_encoding.md section 4), for every map. -/
def Obligations.IllegalOpcodeRejected : Prop :=
    ∀ (m : OpMap) (b : Byte) (rest : List Byte),
    decode m (b :: rest) = .error .illegalOpcode ↔ ∀ op, m.byteOf op ≠ b

/-- A sanity statement on the words of 95_test_vectors.md; it rests on the default opcode bytes, decision D1 (log 1). -/
def Obligations.DecodesWrittenWords : Prop :=
    decode defaultOpMap [0xFF, 0xAB, 0xCD] = .ok .halt ∧
    decode defaultOpMap [0x01, 0x02, 0x07] = .ok (.load 2 7) ∧
    decode defaultOpMap [0x02, 0x01, 0x00] = .ok (.store 1 0) ∧
    decode defaultOpMap [0x03, 0x02, 0x01] = .ok (.add 2 1) ∧
    decode defaultOpMap [0x07, 0x02, 0x01] = .ok (.rem 2 1) ∧
    decode defaultOpMap [0x08, 0x01, 0x64] = .ok (.addi 1 100) ∧
    decode defaultOpMap [0x0A, 0x0B, 0x00] = .ok (.jump 11) ∧
    decode defaultOpMap [0x0B, 0x01, 0x03] = .ok (.beqz 1 3) ∧
    decode defaultOpMap [0x0C, 0x01, 0x04, 0x03] = .ok (.beq 1 4 3) ∧
    decode defaultOpMap [0x00, 0x00, 0x00] = .error .illegalOpcode

/-- HALT (41_halt.md). That the PC stays at the HALT is decision D8. -/
def Obligations.HaltResult : Prop :=
    ∀ s : State, ∃ t, exec .halt s = .next t ∧ t.status = .halted ∧ t.pc = s.pc ∧ t.r1 = s.r1 ∧ t.r2 = s.r2 ∧
    SameMemory s t ∧ t.cause = s.cause ∧ t.steps = s.steps

/-- LOAD (R81) with the read-bound guard (R37). The number of its opcode byte is the parameter OPMAP; the default number is in DecodesWrittenWords. -/
def Obligations.LoadRule : Prop :=
    (∀ (reg addr : Byte) (d : Gpr) (s : State), Names reg d → addr.toNat < 8 →
      ∃ t, exec (.load reg addr) s = .next t ∧ t.gpr d = s.mem.read addr ∧ t.pc = s.pc + 3 ∧ OnlyGprAndPcChange d s t) ∧
    (∀ (reg addr : Byte) (d : Gpr) (s : State), Names reg d → 8 ≤ addr.toNat →
      ExecFaults (.load reg addr) s .segmentationFault) ∧
    (∀ (reg addr : Byte) (s : State), NamesNone reg → ExecFaults (.load reg addr) s .illegalRegister) ∧
    (∀ (m : OpMap) (reg addr : Byte) (rest : List Byte), m.WF →
      decode m (m.load :: reg :: addr :: rest) = .ok (.load reg addr)) ∧
    Opcode.load.width = 3 ∧ Opcode.load.need = 3

/-- STORE (R82) with the write guard (R36). The number of its opcode byte is the parameter OPMAP. -/
def Obligations.StoreRule : Prop :=
    (∀ (reg addr : Byte) (r : Gpr) (s : State), Names reg r → addr.toNat < 8 →
      ∃ t, exec (.store reg addr) s = .next t ∧ t.mem.read addr = s.gpr r ∧ t.pc = s.pc + 3 ∧
        OnlyCellAndPcChange addr s t) ∧
    (∀ (reg addr : Byte) (r : Gpr) (s : State), Names reg r → 8 ≤ addr.toNat →
      ExecFaults (.store reg addr) s .segmentationFault) ∧
    (∀ (reg addr : Byte) (s : State), NamesNone reg → ExecFaults (.store reg addr) s .illegalRegister) ∧
    (∀ (m : OpMap) (reg addr : Byte) (rest : List Byte), m.WF →
      decode m (m.store :: reg :: addr :: rest) = .ok (.store reg addr)) ∧
    Opcode.store.width = 3 ∧ Opcode.store.need = 3

/-- ADD (R84, with what the five have in common). The number of its opcode byte is the parameter OPMAP. -/
def Obligations.AddRule : Prop :=
    (∀ (reg1 reg2 : Byte) (d r : Gpr) (s : State), Names reg1 d → Names reg2 r →
      ∃ t, exec (.add reg1 reg2) s = .next t ∧ (t.gpr d).toNat = ((s.gpr d).toNat + (s.gpr r).toNat) % 256 ∧
        t.pc = s.pc + 3 ∧ OnlyGprAndPcChange d s t) ∧
    (∀ (reg1 reg2 : Byte) (s : State), NamesNone reg1 ∨ NamesNone reg2 →
      ExecFaults (.add reg1 reg2) s .illegalRegister) ∧
    (∀ (m : OpMap) (reg1 reg2 : Byte) (rest : List Byte), m.WF →
      decode m (m.add :: reg1 :: reg2 :: rest) = .ok (.add reg1 reg2)) ∧
    Opcode.add.width = 3 ∧ Opcode.add.need = 3

/-- SUB (R85, with what the five have in common). The number of its opcode byte is the parameter OPMAP. -/
def Obligations.SubRule : Prop :=
    (∀ (reg1 reg2 : Byte) (d r : Gpr) (s : State), Names reg1 d → Names reg2 r →
      ∃ t, exec (.sub reg1 reg2) s = .next t ∧ (t.gpr d).toNat = ((s.gpr d).toNat + 256 - (s.gpr r).toNat) % 256 ∧
        t.pc = s.pc + 3 ∧ OnlyGprAndPcChange d s t) ∧
    (∀ (reg1 reg2 : Byte) (s : State), NamesNone reg1 ∨ NamesNone reg2 →
      ExecFaults (.sub reg1 reg2) s .illegalRegister) ∧
    (∀ (m : OpMap) (reg1 reg2 : Byte) (rest : List Byte), m.WF →
      decode m (m.sub :: reg1 :: reg2 :: rest) = .ok (.sub reg1 reg2)) ∧
    Opcode.sub.width = 3 ∧ Opcode.sub.need = 3

/-- MUL (R86, with what the five have in common). The number of its opcode byte is the parameter OPMAP. -/
def Obligations.MulRule : Prop :=
    (∀ (reg1 reg2 : Byte) (d r : Gpr) (s : State), Names reg1 d → Names reg2 r →
      ∃ t, exec (.mul reg1 reg2) s = .next t ∧ (t.gpr d).toNat = ((s.gpr d).toNat * (s.gpr r).toNat) % 256 ∧
        t.pc = s.pc + 3 ∧ OnlyGprAndPcChange d s t) ∧
    (∀ (reg1 reg2 : Byte) (s : State), NamesNone reg1 ∨ NamesNone reg2 →
      ExecFaults (.mul reg1 reg2) s .illegalRegister) ∧
    (∀ (m : OpMap) (reg1 reg2 : Byte) (rest : List Byte), m.WF →
      decode m (m.mul :: reg1 :: reg2 :: rest) = .ok (.mul reg1 reg2)) ∧
    Opcode.mul.width = 3 ∧ Opcode.mul.need = 3

/-- DIV (R87). The number of its opcode byte is the parameter OPMAP. -/
def Obligations.DivRule : Prop :=
    (∀ (reg1 reg2 : Byte) (d r : Gpr) (s : State), Names reg1 d → Names reg2 r → s.gpr r ≠ 0 →
      ∃ t, exec (.div reg1 reg2) s = .next t ∧ (t.gpr d).toNat = (s.gpr d).toNat / (s.gpr r).toNat ∧
        t.pc = s.pc + 3 ∧ OnlyGprAndPcChange d s t) ∧
    (∀ (reg1 reg2 : Byte) (d r : Gpr) (s : State), Names reg1 d → Names reg2 r → s.gpr r = 0 →
      ExecFaults (.div reg1 reg2) s .arithmeticFault) ∧
    (∀ (reg1 reg2 : Byte) (s : State), NamesNone reg1 ∨ NamesNone reg2 →
      ExecFaults (.div reg1 reg2) s .illegalRegister) ∧
    (∀ (m : OpMap) (reg1 reg2 : Byte) (rest : List Byte), m.WF →
      decode m (m.div :: reg1 :: reg2 :: rest) = .ok (.div reg1 reg2)) ∧
    Opcode.div.width = 3 ∧ Opcode.div.need = 3

/-- REM (R88). The number of its opcode byte is the parameter OPMAP. -/
def Obligations.RemRule : Prop :=
    (∀ (reg1 reg2 : Byte) (d r : Gpr) (s : State), Names reg1 d → Names reg2 r → s.gpr r ≠ 0 →
      ∃ t, exec (.rem reg1 reg2) s = .next t ∧ (t.gpr d).toNat = (s.gpr d).toNat % (s.gpr r).toNat ∧
        t.pc = s.pc + 3 ∧ OnlyGprAndPcChange d s t) ∧
    (∀ (reg1 reg2 : Byte) (d r : Gpr) (s : State), Names reg1 d → Names reg2 r → s.gpr r = 0 →
      ExecFaults (.rem reg1 reg2) s .arithmeticFault) ∧
    (∀ (reg1 reg2 : Byte) (s : State), NamesNone reg1 ∨ NamesNone reg2 →
      ExecFaults (.rem reg1 reg2) s .illegalRegister) ∧
    (∀ (m : OpMap) (reg1 reg2 : Byte) (rest : List Byte), m.WF →
      decode m (m.rem :: reg1 :: reg2 :: rest) = .ok (.rem reg1 reg2)) ∧
    Opcode.rem.width = 3 ∧ Opcode.rem.need = 3

/-- ADDI (R90). The number of its opcode byte is the parameter OPMAP. -/
def Obligations.AddiRule : Prop :=
    (∀ (reg imm : Byte) (d : Gpr) (s : State), Names reg d →
      ∃ t, exec (.addi reg imm) s = .next t ∧ (t.gpr d).toNat = ((s.gpr d).toNat + imm.toNat) % 256 ∧
        t.pc = s.pc + 3 ∧ OnlyGprAndPcChange d s t) ∧
    (∀ (reg imm : Byte) (s : State), NamesNone reg → ExecFaults (.addi reg imm) s .illegalRegister) ∧
    (∀ (m : OpMap) (reg imm : Byte) (rest : List Byte), m.WF →
      decode m (m.addi :: reg :: imm :: rest) = .ok (.addi reg imm)) ∧
    Opcode.addi.width = 3 ∧ Opcode.addi.need = 3

/-- SUBI (R91). The number of its opcode byte is the parameter OPMAP. -/
def Obligations.SubiRule : Prop :=
    (∀ (reg imm : Byte) (d : Gpr) (s : State), Names reg d →
      ∃ t, exec (.subi reg imm) s = .next t ∧ (t.gpr d).toNat = ((s.gpr d).toNat + 256 - imm.toNat) % 256 ∧
        t.pc = s.pc + 3 ∧ OnlyGprAndPcChange d s t) ∧
    (∀ (reg imm : Byte) (s : State), NamesNone reg → ExecFaults (.subi reg imm) s .illegalRegister) ∧
    (∀ (m : OpMap) (reg imm : Byte) (rest : List Byte), m.WF →
      decode m (m.subi :: reg :: imm :: rest) = .ok (.subi reg imm)) ∧
    Opcode.subi.width = 3 ∧ Opcode.subi.need = 3

/-- JUMP (45_control_transfer.md). That the PC has a ninth bit, here 0, is decision D5. -/
def Obligations.JumpResult : Prop :=
    ∀ (target : Byte) (s : State), ∃ t, exec (.jump target) s = .next t ∧ t.pc.toNat = target.toNat ∧ OnlyPcChanges s t

/-- BEQZ (R93). The number of its opcode byte is the parameter OPMAP. -/
def Obligations.BeqzRule : Prop :=
    (∀ (reg offset : Byte) (r : Gpr) (s : State), Names reg r →
      ∃ t, exec (.beqz reg offset) s = .next t ∧ OnlyPcChanges s t ∧
        (s.gpr r = 0 → t.pc = s.pc + 3 + offset.setWidth 9) ∧ (s.gpr r ≠ 0 → t.pc = s.pc + 3) ∧
        (s.gpr r = 0 → s.pc.toNat + 3 ≤ 256 → t.pc.toNat = s.pc.toNat + 3 + offset.toNat)) ∧
    (∀ (reg offset : Byte) (s : State), NamesNone reg → ExecFaults (.beqz reg offset) s .illegalRegister) ∧
    (∀ (m : OpMap) (reg offset : Byte) (rest : List Byte), m.WF →
      decode m (m.beqz :: reg :: offset :: rest) = .ok (.beqz reg offset)) ∧
    Opcode.beqz.width = 3 ∧ Opcode.beqz.need = 3

/-- BEQ (R94). The number of its opcode byte is the parameter OPMAP. -/
def Obligations.BeqRule : Prop :=
    (∀ (reg constant offset : Byte) (r : Gpr) (s : State), Names reg r →
      ∃ t, exec (.beq reg constant offset) s = .next t ∧ OnlyPcChanges s t ∧
        (s.gpr r = constant → t.pc = s.pc + 4 + offset.setWidth 9) ∧ (s.gpr r ≠ constant → t.pc = s.pc + 4) ∧
        (s.gpr r = constant → s.pc.toNat + 4 ≤ 256 → t.pc.toNat = s.pc.toNat + 4 + offset.toNat)) ∧
    (∀ (reg constant offset : Byte) (s : State), NamesNone reg →
      ExecFaults (.beq reg constant offset) s .illegalRegister) ∧
    (∀ (m : OpMap) (reg constant offset : Byte) (rest : List Byte), m.WF →
      decode m (m.beq :: reg :: constant :: offset :: rest) = .ok (.beq reg constant offset)) ∧
    (∀ (p : Params) (s : State), p.opmap.WF → Fetching p s → 253 ≤ s.pc.toNat → s.pc.toNat ≤ 255 →
      cellAt s s.pc.toNat = p.opmap.beq → CycleFaults p s .fetchOutOfBounds) ∧
    Opcode.beq.width = 4 ∧ Opcode.beq.need = 4

/-- Register validation comes before every other check of an instruction (30_encoding.md section 3, decisions D2, D3 and D10). -/
def Obligations.InvalidRegisterFaults : Prop :=
    (∀ i : Instr, i.WellFormed ↔ ∀ b ∈ i.registerBytes, b = 1 ∨ b = 2) ∧
    (∀ (i : Instr) (s : State), ¬i.WellFormed → ExecFaults i s .illegalRegister) ∧
    (∀ (i : Instr) (s t : State), i.WellFormed → s.status = .running → exec i s = .next t → t.status = .faulted →
      t.cause ≠ some .illegalRegister)

/-- The step runs the decoded instruction (40_dispatch.md, the step). What step adds around exec is only the count of completed instructions, where there is a budget (decision D11). -/
def Obligations.StepRunsDecoded : Prop :=
    (∀ (s : State) (i : Instr), s.status = .running → 8 ≤ s.pc.toNat → s.pc.toNat ≤ 255 →
      decode defaultOpMap (window s) = .ok i → step s = exec i s) ∧
    (∀ (p : Params) (s : State) (i : Instr), Fetching p s → 8 ≤ s.pc.toNat → s.pc.toNat ≤ 255 →
      decode p.opmap (window s) = .ok i → ∃ t, exec i s = .next t ∧ cycle p s = .next (countStep p t))

/-- The fetch, decode and dispatch of an instruction from its bytes in memory (40_dispatch.md), with nothing asked of bytes it does not need (decision D7). -/
def Obligations.CycleRunsInstructionAtPc : Prop :=
    ∀ (p : Params) (s : State) (i : Instr), p.opmap.WF → Fetching p s → InstructionAtPc p.opmap i s →
    ∃ t, exec i s = .next t ∧ cycle p s = .next (countStep p t)

/-- A program loaded at address 8 runs from reset (70_reset_and_hazards.md section 2); withFetchWord stands for the load (log 4). -/
def Obligations.PlacedWordRuns : Prop :=
    ∀ (nbits w : Nat) (i : Instr), decodeTableWord nbits w = some i →
    ∃ t, exec i (State.reset.withFetchWord nbits w) = .next t ∧ step (State.reset.withFetchWord nbits w) = .next t

/-- Every case of the spec has an effect, and the model takes it (40_dispatch.md; log 5 and log 6). -/
def Obligations.EveryStepAnswersNext : Prop :=
    (∀ (p : Params) (s : State), ∃ t, cycle p s = .next t) ∧ (∀ (i : Instr) (s : State), ∃ t, exec i s = .next t)

/-- The budget check (40_dispatch.md, decisions D10 and D11). -/
def Obligations.SpentBudgetFaults : Prop :=
    (∀ (p : Params) (s : State), s.status = .running → p.maxSteps = some s.steps → CycleFaults p s .budgetExhausted) ∧
    (∀ (p : Params) (s t : State), Fetching p s → cycle p s = .next t → t.status = .faulted →
      t.cause ≠ some .budgetExhausted)

/-- The fetch guard (20_memory.md section 3, decision D4). -/
def Obligations.FetchGuardFaults : Prop :=
    ∀ (p : Params) (s : State), Fetching p s → s.pc.toNat < 8 ∨ 255 < s.pc.toNat → CycleFaults p s .fetchOutOfBounds

/-- IllegalOpcode (60_exceptions.md section 1), before any operand byte is needed (decision D10). -/
def Obligations.IllegalOpcodeFaults : Prop :=
    ∀ (p : Params) (s : State), Fetching p s → 8 ≤ s.pc.toNat → s.pc.toNat ≤ 255 →
    (∀ op, p.opmap.byteOf op ≠ cellAt s s.pc.toNat) → CycleFaults p s .illegalOpcode

/-- The operand-fetch bound (20_memory.md section 3, decision D7). -/
def Obligations.OperandBoundFaults : Prop :=
    (∀ (p : Params) (s : State) (op : Opcode), p.opmap.WF → Fetching p s → 8 ≤ s.pc.toNat → s.pc.toNat ≤ 255 →
      cellAt s s.pc.toNat = p.opmap.byteOf op → 255 < s.pc.toNat + op.need - 1 → CycleFaults p s .fetchOutOfBounds) ∧
    (∀ op : Opcode, op.need = if op = .halt then 1 else if op = .jump then 2 else if op = .beq then 4 else 3)

/-- SegmentationFault (R101). -/
def Obligations.SegmentationFaultExactly : Prop :=
    (∀ (reg addr : Byte) (d : Gpr) (s : State), Names reg d → 8 ≤ addr.toNat →
      ExecFaults (.load reg addr) s .segmentationFault ∧ ExecFaults (.store reg addr) s .segmentationFault) ∧
    (∀ (i : Instr) (s t : State), s.status = .running → exec i s = .next t → t.status = .faulted →
      t.cause = some .segmentationFault →
      ∃ reg addr d, Names reg d ∧ 8 ≤ addr.toNat ∧ (i = .load reg addr ∨ i = .store reg addr)) ∧
    (∀ (m : OpMap) (s : State), fetch m s ≠ .error .segmentationFault) ∧
    (∀ (p : Params) (s : State), Fetching p s → s.pc.toNat < 8 ∨ 255 < s.pc.toNat → CycleFaults p s .fetchOutOfBounds)

/-- ArithmeticFault (R103). -/
def Obligations.ArithmeticFaultExactly : Prop :=
    (∀ (reg1 reg2 : Byte) (d r : Gpr) (s : State), Names reg1 d → Names reg2 r → s.gpr r = 0 →
      ExecFaults (.div reg1 reg2) s .arithmeticFault ∧ ExecFaults (.rem reg1 reg2) s .arithmeticFault) ∧
    (∀ (i : Instr) (s t : State), s.status = .running → exec i s = .next t → t.status = .faulted →
      t.cause = some .arithmeticFault →
      ∃ reg1 reg2 d r, Names reg1 d ∧ Names reg2 r ∧ s.gpr r = 0 ∧ (i = .div reg1 reg2 ∨ i = .rem reg1 reg2))

/-- The 'raised when' column of the fault list (60_exceptions.md section 1), read backwards. -/
def Obligations.FaultsOnlyForTheirReason : Prop :=
    ∀ (p : Params) (s t : State), s.status = .running → cycle p s = .next t → t.status = .faulted →
    (t.cause = some .budgetExhausted ∧ p.maxSteps = some s.steps) ∨
    (t.cause = some .fetchOutOfBounds ∧
      (s.pc.toNat < 8 ∨ 255 < s.pc.toNat ∨
        ∃ op, p.opmap.byteOf op = cellAt s s.pc.toNat ∧ 255 < s.pc.toNat + op.need - 1)) ∨
    (t.cause = some .illegalOpcode ∧ ∀ op, p.opmap.byteOf op ≠ cellAt s s.pc.toNat) ∨
    (∃ i, fetch p.opmap s = .ok i ∧
      ((t.cause = some .illegalRegister ∧ ∃ b ∈ i.registerBytes, NamesNone b) ∨
        (t.cause = some .segmentationFault ∧ ∃ reg addr, 8 ≤ addr.toNat ∧ (i = .load reg addr ∨ i = .store reg addr)) ∨
        (t.cause = some .arithmeticFault ∧
          ∃ reg1 reg2 r, Names reg2 r ∧ s.gpr r = 0 ∧ (i = .div reg1 reg2 ∨ i = .rem reg1 reg2))))

/-- Faults are all-or-nothing and precise (40_dispatch.md, 60_exceptions.md section 4, decision D8). -/
def Obligations.FaultChangesOnlyStatusAndCause : Prop :=
    ∀ (p : Params) (s t : State), s.status = .running → cycle p s = .next t → t.status = .faulted →
    ∃ k, FaultTaken k s t

/-- Only HALT leads to HALTED (10_state.md section 5). -/
def Obligations.HaltedOnlyByHalt : Prop :=
    ∀ (p : Params) (s t : State), s.status = .running → cycle p s = .next t → t.status = .halted →
    cellAt s s.pc.toNat = 0xFF ∧ 8 ≤ s.pc.toNat ∧ s.pc.toNat ≤ 255 ∧ t.pc = s.pc ∧ t.r1 = s.r1 ∧ t.r2 = s.r2 ∧
      SameMemory s t ∧ t.cause = s.cause

/-- Terminal states take no step (40_dispatch.md). That a step there answers the unchanged state, and does not stop the model, is the model's choice (log 5). -/
def Obligations.TerminalStatesStay : Prop :=
    ∀ (p : Params) (n : Nat) (s : State), s.status ≠ .running →
    cycles p n s = .next s ∧ ∃ t, restart s = some t ∧ t.status = .running ∧ t.pc = 8 ∧ SameMemory s t

/-- The invariant of CAUSE and STATUS (10_state.md section 5, decision D9) with the canonical form of memory, which is the model's own representation. -/
def Obligations.InvariantKept : Prop :=
    (∀ s t : State, s.Inv → step s = .next t → t.Inv) ∧
    (∀ (p : Params) (s t : State), s.Inv → cycle p s = .next t → t.Inv)

/-- The invariant's start (10_state.md section 6). -/
def Obligations.InvariantAtReset : Prop :=
    State.reset.Inv ∧ ∀ (image : List Byte) (s : State), startRun image = some s → s.Inv

/-- At most MAX_STEPS instructions complete in one run (40_dispatch.md, decision D11). -/
def Obligations.BudgetInvariantKept : Prop :=
    ∀ (p : Params) (s t : State), WithinBudget p s → cycle p s = .next t → WithinBudget p t

/-- Instructions are never mutated during execution (20_memory.md section 4). -/
def Obligations.ProgramSegmentConstant : Prop :=
    ∀ (p : Params) (n : Nat) (s t : State), cycles p n s = .next t →
    ∀ a : Byte, 8 ≤ a.toNat → t.mem.read a = s.mem.read a

/-- Who accesses memory (20_memory.md section 1). -/
def Obligations.OnlyStoreWritesMemory : Prop :=
    ∀ (i : Instr) (s t : State) (b : Byte), exec i s = .next t → (∀ reg, i ≠ .store reg b) →
    t.mem.read b = s.mem.read b

/-- The consistency model (20_memory.md section 4), for one STORE and one LOAD. -/
def Obligations.StoreThenLoad : Prop :=
    ∀ (reg reg' a b : Byte) (r d : Gpr) (s : State), Names reg r → Names reg' d → a.toNat < 8 → b.toNat < 8 →
    ∃ t, exec (.store reg a) s = .next t ∧
      ∀ u : State, SameMemory t u →
        ∃ v, exec (.load reg' b) u = .next v ∧ v.gpr d = if b = a then s.gpr r else s.mem.read b

/-- Equal memories are equal data. The canonical form is the model's own representation of the 256 cells (20_memory.md section 1). -/
def Obligations.CanonicalMemoryDetermined : Prop :=
    ∀ m m' : Memory, m.wf = true → m'.wf = true → (∀ a : Byte, m.read a = m'.read a) → m = m'

/-- How the PC advances (10_state.md section 3), in natural numbers: the ninth bit and the unsigned offset are decisions D5 and D6. -/
def Obligations.PcAdvancesExactly : Prop :=
    ∀ (p : Params) (s t : State) (i : Instr), p.opmap.WF → Fetching p s → InstructionAtPc p.opmap i s →
    cycle p s = .next t → t.status = .running →
    match i with
    | .halt => False
    | .jump target => t.pc.toNat = target.toNat
    | .beqz reg offset => ∃ r, Names reg r ∧
        t.pc.toNat = s.pc.toNat + 3 + if s.gpr r = 0 then offset.toNat else 0
    | .beq reg constant offset => ∃ r, Names reg r ∧
        t.pc.toNat = s.pc.toNat + 4 + if s.gpr r = constant then offset.toNat else 0
    | .load _ _ | .store _ _ | .add _ _ | .sub _ _ | .mul _ _ | .div _ _ | .rem _ _ | .addi _ _ | .subi _ _ =>
        t.pc.toNat = s.pc.toNat + 3

/-- Determinism (40_dispatch.md, derived there from the step): the same bytes at the same PC with the same registers and Data Segment always make the same step. -/
def Obligations.StepDependsOnlyOn : Prop :=
    ∀ (p : Params) (s s' t : State), SameButProgram s s' →
    (∀ k, k < 4 → s.pc.toNat + k ≤ 255 → cellAt s' (s.pc.toNat + k) = cellAt s (s.pc.toNat + k)) →
    cycle p s = .next t → ∃ t', cycle p s' = .next t' ∧ SameButProgram t t'

/-- The step counter (10_state.md section 5, decision D11). That STEPS keeps its value where MAX_STEPS is absent is log 2. -/
def Obligations.StepsCountsCompleted : Prop :=
    ∀ (p : Params) (s t : State), s.status = .running → cycle p s = .next t →
    (p.maxSteps ≠ none → t.status ≠ .faulted → t.steps = s.steps + 1) ∧
    (t.status = .faulted → t.steps = s.steps) ∧ (p.maxSteps = none → t.steps = s.steps)

/-- With a budget a run always ends, and without one it may never (70_reset_and_hazards.md section 2); the endless run shown is the shortest one, a JUMP to itself. -/
def Obligations.BudgetEndsEveryRun : Prop :=
    (∀ (p : Params) (N : Nat) (s : State), p.maxSteps = some N → s.status = .running → s.steps ≤ N →
      ∃ n t, n ≤ N - s.steps + 1 ∧ cycles p n s = .next t ∧ t.terminal = true ∧ t.steps ≤ N) ∧
    (∀ (p : Params) (target : Byte) (s : State), p.maxSteps = none → p.opmap.WF → s.status = .running →
      target.toNat = s.pc.toNat → InstructionAtPc p.opmap (.jump target) s →
      ∀ n, cycles p n s = .next s ∧ runResult s = none ∧ ∀ a, hostRead a s = none) ∧
    (∀ (p : Params) (s t : State), p.maxSteps = none → s.status = .running → cycle p s = .next t →
      t.status = .faulted → t.cause ≠ some .budgetExhausted)

/-- The end and the result of a run (70_reset_and_hazards.md section 2). It uses that a step at a terminal state answers that state again, the model's choice (log 5). -/
def Obligations.RunResultDetermined : Prop :=
    ∀ (p : Params) (s t t' : State), RunEnds p s t → RunEnds p s t' → t = t' ∧ runResult t = some ⟨t.mem, t.status, t.cause⟩

/-- The reset values (10_state.md section 6). CAUSE and STEPS are the spec's own (D9, D11); that an unlisted cell reads as 0 is the model's choice (log 3). -/
def Obligations.ResetState : Prop :=
    State.reset.pc = 8 ∧ State.reset.r1 = 0 ∧ State.reset.r2 = 0 ∧ State.reset.status = .running ∧
    State.reset.cause = none ∧ State.reset.steps = 0 ∧ ∀ a : Byte, State.reset.mem.read a = 0

/-- The start of a run over IMAGE (70_reset_and_hazards.md section 1, decisions D12 and D13). -/
def Obligations.ImageLoaded : Prop :=
    (∀ image : List Byte, image.length = 256 → ∃ s, startRun image = some s ∧
      (∀ a : Byte, image[a.toNat]? = some (s.mem.read a)) ∧ s.pc = 8 ∧ s.r1 = 0 ∧ s.r2 = 0 ∧
      s.status = .running ∧ s.cause = none ∧ s.steps = 0) ∧
    (∀ image : List Byte, image.length ≠ 256 → startRun image = none)

/-- Reset does not touch memory, and nothing else carries over (70_reset_and_hazards.md section 1). -/
def Obligations.ResetKeepsMemory : Prop :=
    ∀ s : State, s.status ≠ .running → ∃ t, restart s = some t ∧ t.pc = 8 ∧ t.r1 = 0 ∧ t.r2 = 0 ∧
    t.status = .running ∧ t.cause = none ∧ t.steps = 0 ∧ SameMemory s t

/-- The host contract (70_reset_and_hazards.md section 2, decisions D12 and D16; log 4). -/
def Obligations.HostMovesOnlyBetweenRuns : Prop :=
    (∀ (s : State) (a v : Byte), s.status = .running →
      hostWrite a v s = none ∧ hostRead a s = none ∧ restart s = none ∧ runResult s = none) ∧
    (∀ (s : State) (a v : Byte), s.status ≠ .running →
      (∃ t, hostWrite a v s = some t ∧ t.mem.read a = v ∧ (∀ b, b ≠ a → t.mem.read b = s.mem.read b) ∧
        t.pc = s.pc ∧ t.r1 = s.r1 ∧ t.r2 = s.r2 ∧ SameControl s t) ∧
      hostRead a s = some (s.mem.read a) ∧ runResult s = some ⟨s.mem, s.status, s.cause⟩)

/-- STATUS and CAUSE as the host sees them, and their legal transitions (10_state.md section 5, decision D9). -/
def Obligations.HostReadsStatusAtAnyTime : Prop :=
    (∀ s : State, hostStatus s = s.status ∧ hostCause s = s.cause ∧ (hostStatus s).code ≠ 3 ∧ causeCode (hostCause s) ≠ 7) ∧
    (∀ (s t : State) (a v : Byte), hostWrite a v s = some t → hostStatus t = hostStatus s ∧ hostCause t = hostCause s) ∧
    (∀ s t : State, restart s = some t → hostStatus t = .running ∧ hostCause t = none) ∧
    (∀ (p : Params) (s t : State), cycle p s = .next t → hostStatus s ≠ .running →
      hostStatus t = hostStatus s ∧ hostCause t = hostCause s) ∧
    (∀ (p : Params) (s t : State), cycle p s = .next t → hostStatus s = .running → hostStatus t ≠ .running →
      (hostStatus t = .halted ∧ hostCause t = hostCause s) ∨ (hostStatus t = .faulted ∧ ∃ k, hostCause t = some k))
end

