-- ==== Sys2Proof/Laws/Arith.lean ====
section
/-! SUPPORT. The arithmetic unit over natural numbers, and the widths of PC arithmetic. -/

namespace Sys2Proof.Machine

theorem trunc8_toNat (v : Int) : ((trunc8 v).toNat : Int) = v % 256 := by
  simp only [trunc8, BitVec.toNat_ofInt]
  have := Int.emod_nonneg v (b := 256) (by decide)
  omega

/-- ADD and ADDI reduce the exact sum modulo 256 (R89). -/
theorem trunc8_add (a b : Byte) : (trunc8 ((a.toNat : Int) + (b.toNat : Int))).toNat = (a.toNat + b.toNat) % 256 := by
  have := trunc8_toNat ((a.toNat : Int) + (b.toNat : Int))
  omega

/-- SUB and SUBI reduce the exact difference modulo 256 (R89). -/
theorem trunc8_sub (a b : Byte) :
    (trunc8 ((a.toNat : Int) - (b.toNat : Int))).toNat = (a.toNat + 256 - b.toNat) % 256 := by
  have := trunc8_toNat ((a.toNat : Int) - (b.toNat : Int))
  have := b.isLt
  omega

/-- MUL keeps the low byte of the exact product (R89). -/
theorem trunc8_mul (a b : Byte) : (trunc8 ((a.toNat : Int) * (b.toNat : Int))).toNat = (a.toNat * b.toNat) % 256 := by
  have h := trunc8_toNat ((a.toNat : Int) * (b.toNat : Int))
  generalize trunc8 _ = w at h ⊢
  rw [← Nat.cast_mul] at h
  omega

theorem zext9_toNat (b : Byte) : (zext9 b).toNat = b.toNat := by
  have := b.isLt
  simp only [zext9, BitVec.toNat_setWidth]
  omega

theorem npc_toNat {s : State} {op : Opcode} (h : s.pc.toNat ≤ 255) : (npc s op).toNat = s.pc.toNat + op.width := by
  have hw : op.width ≤ 4 := by cases op <;> decide
  simp only [npc, BitVec.toNat_add, BitVec.toNat_ofNat]
  omega

/-- At an instruction whose slot ends at or below 256 no branch target wraps (R15): the largest is 511. -/
theorem branchTarget_toNat {s : State} {op : Opcode} {offset : Byte} (h : s.pc.toNat + op.width ≤ 256) :
    (branchTarget s op offset).toNat = s.pc.toNat + op.width + offset.toNat := by
  have hw : 0 < op.width := by cases op <;> decide
  have hn := npc_toNat (s := s) (op := op) (by omega)
  have := offset.isLt
  simp only [branchTarget, BitVec.toNat_add, zext9_toNat, hn]
  omega

end Sys2Proof.Machine
end

