-- ==== Sys2Proof/Laws/Decode.lean ====
section
/-! SUPPORT. The decoder's parts: register bytes, opcode recognition, and the bytes a fetch sees. -/

namespace Sys2Proof

/-- `gprOf` reads back the index of each register. -/
@[simp] theorem gprOf_index (d : Gpr) : gprOf d.index = some d := by cases d <;> rfl

/-- A byte names a register exactly when it is that register's index. -/
theorem gprOf_eq_some {b : Byte} {d : Gpr} : gprOf b = some d ↔ b = d.index := by
  constructor
  · intro h
    unfold gprOf at h
    split at h
    · next h1 => cases h; exact h1
    · split at h
      · next h2 => cases h; exact h2
      · cases h
  · rintro rfl
    exact gprOf_index d

theorem mem_opcodeTable (op : Opcode) : op ∈ opcodeTable := by cases op <;> decide

/-- What opcode recognition finds has the byte it was given. -/
theorem OpMap.byteOf_of_recognise {m : OpMap} {b : Byte} {op : Opcode} (h : m.recognise b = some op) :
    m.byteOf op = b := by
  simpa using List.find?_some h

/-- Opcode recognition fails exactly on the bytes of no operation (R57). -/
theorem OpMap.recognise_eq_none {m : OpMap} {b : Byte} : m.recognise b = none ↔ ∀ op, m.byteOf op ≠ b := by
  unfold OpMap.recognise
  rw [List.find?_eq_none]
  constructor
  · intro h op e
    exact h op (mem_opcodeTable op) (by simpa using e)
  · intro h op _ e
    exact h op (by simpa using e)

/-- With pairwise distinct opcode bytes, an operation is the only one with its byte. -/
theorem OpMap.WF.byteOf_inj {m : OpMap} (h : m.WF) {op op' : Opcode} (e : m.byteOf op = m.byteOf op') : op = op' :=
  List.inj_on_of_nodup_map h (mem_opcodeTable op) (mem_opcodeTable op') e

/-- With pairwise distinct opcode bytes, each opcode byte is recognised as its own operation (R54). -/
theorem OpMap.WF.recognise_byteOf {m : OpMap} (h : m.WF) (op : Opcode) : m.recognise (m.byteOf op) = some op := by
  cases hr : m.recognise (m.byteOf op) with
  | none => exact absurd rfl (OpMap.recognise_eq_none.mp hr op)
  | some op' => rw [h.byteOf_inj (OpMap.byteOf_of_recognise hr)]

/-- Decoding from a recognised opcode byte on. -/
theorem decode_byteOf {m : OpMap} (h : m.WF) (op : Opcode) (rest : List Byte) :
    decode m (m.byteOf op :: rest) = decodeOperands op rest := by
  simp [decode, h.recognise_byteOf]

/-- Decoding an operation's operand bytes fails exactly where fewer than the needed ones are there (R39, R53). -/
theorem decodeOperands_eq_error {op : Opcode} {bs : List Byte} :
    decodeOperands op bs = .error .operandsMissing ↔ bs.length + 1 < op.need := by
  rcases bs with _ | ⟨b1, _ | ⟨b2, _ | ⟨b3, bs⟩⟩⟩ <;> cases op <;> simp [decodeOperands, Opcode.need]

/-- The only way decoding operand bytes fails is that too few are there. -/
theorem decodeOperands_error {op : Opcode} {bs : List Byte} {e : DecodeError} (h : decodeOperands op bs = .error e) :
    e = .operandsMissing := by
  rcases bs with _ | ⟨b1, _ | ⟨b2, _ | ⟨b3, bs⟩⟩⟩ <;> cases op <;> cases h <;> rfl

/-- What a decoding that answers an instruction has read: a recognised opcode byte, then the operand bytes. -/
theorem decode_ok {m : OpMap} {bs : List Byte} {i : Instr} (h : decode m bs = .ok i) :
    ∃ op rest, bs = m.byteOf op :: rest ∧ m.recognise (m.byteOf op) = some op ∧ decodeOperands op rest = .ok i := by
  rcases bs with _ | ⟨b, rest⟩
  · cases h
  · rw [decode] at h
    cases hr : m.recognise b with
    | none => rw [hr] at h; cases h
    | some op =>
      rw [hr] at h
      obtain rfl := OpMap.byteOf_of_recognise hr
      exact ⟨op, rest, rfl, hr, h⟩

/-- Why a decoding is rejected (R39, R57): no byte at all, an opcode byte of no operation, or too few bytes for a recognised one. -/
theorem decode_error {m : OpMap} {bs : List Byte} {e : DecodeError} (h : decode m bs = .error e) :
    (bs = [] ∧ e = .operandsMissing) ∨
      (∃ b rest, bs = b :: rest ∧ (∀ op, m.byteOf op ≠ b) ∧ e = .illegalOpcode) ∨
      (∃ op rest, bs = m.byteOf op :: rest ∧ rest.length + 1 < op.need ∧ e = .operandsMissing) := by
  rcases bs with _ | ⟨b, rest⟩
  · cases h; exact .inl ⟨rfl, rfl⟩
  · rw [decode] at h
    cases hr : m.recognise b with
    | none =>
      rw [hr] at h
      cases h
      exact .inr (.inl ⟨b, rest, rfl, OpMap.recognise_eq_none.mp hr, rfl⟩)
    | some op =>
      rw [hr] at h
      obtain rfl := OpMap.byteOf_of_recognise hr
      obtain rfl := decodeOperands_error h
      exact .inr (.inr ⟨op, rest, rfl, decodeOperands_eq_error.mp h, rfl⟩)

/-- The instruction decoded from an operation's operand bytes is one of that operation. -/
theorem opcode_of_decodeOperands {op : Opcode} {bs : List Byte} {i : Instr} (h : decodeOperands op bs = .ok i) :
    i.opcode = op := by
  unfold decodeOperands at h
  split at h <;> cases h <;> rfl

namespace Machine

/-- The `k`-th byte a fetch sees from address `a`: the cell at `a + k`, as far as memory goes. -/
theorem bytesAt_getElem? (m : Memory) (a n k : Nat) :
    (bytesAt m a n)[k]? = if k < n ∧ a + k < Config.memSize then some (m.read (BitVec.ofNat 8 (a + k))) else none := by
  induction n generalizing a k with
  | zero => simp [bytesAt]
  | succ n ih =>
    unfold bytesAt
    split
    · next ha =>
      cases k with
      | zero => simp [ha]
      | succ k =>
        rw [List.getElem?_cons_succ, ih]
        have e : a + 1 + k = a + (k + 1) := by omega
        rw [e]
        simp
    · next ha =>
      rw [if_neg (by omega)]
      rfl

/-- How many bytes a fetch sees from address `a` (R39). -/
theorem length_bytesAt (m : Memory) (a n : Nat) : (bytesAt m a n).length = min n (Config.memSize - a) := by
  induction n generalizing a with
  | zero => simp [bytesAt]
  | succ n ih =>
    unfold bytesAt
    split
    · next ha => rw [List.length_cons, ih]; omega
    · next ha => simp only [List.length_nil]; omega

/-- At a fetchable PC the bytes seen begin with the opcode byte. -/
theorem bytesAt_succ {m : Memory} {a n : Nat} (h : a < Config.memSize) :
    bytesAt m a (n + 1) = m.read (BitVec.ofNat 8 a) :: bytesAt m (a + 1) n := by
  simp [bytesAt, h]

theorem fetchable_iff {pc : PcWord} : fetchable pc = true ↔ 8 ≤ pc.toNat ∧ pc.toNat ≤ 255 := by
  unfold fetchable fetchLow Config.memSize
  rw [Bool.and_eq_true, decide_eq_true_eq, decide_eq_true_eq, Nat.lt_succ_iff]

/-- What a fetch that answers an instruction has checked (R71 steps 1 to 4). -/
theorem fetch_ok {m : OpMap} {s : State} {i : Instr} (h : fetch m s = .ok i) :
    fetchable s.pc = true ∧ decode m (window s) = .ok i := by
  unfold fetch at h
  split at h
  · next hf =>
    refine ⟨hf, ?_⟩
    split at h
    · next hd => cases h; exact hd
    · cases h
  · cases h

/-- Why a fetch fails (R71 steps 1 to 4). -/
theorem fetch_error {m : OpMap} {s : State} {k : FaultKind} (h : fetch m s = .error k) :
    (fetchable s.pc = false ∧ k = .fetchOutOfBounds) ∨
      (fetchable s.pc = true ∧ ∃ e, decode m (window s) = .error e ∧ k = faultOfDecode e) := by
  unfold fetch at h
  split at h
  · next hf =>
    split at h
    · cases h
    · next e hd => cases h; exact .inr ⟨hf, e, hd, rfl⟩
  · next hf => cases h; exact .inl ⟨by simpa using hf, rfl⟩

end Machine

end Sys2Proof
end

