-- ==== Sys2Proof/Laws/State.lean ====
section
/-! SUPPORT. Each update of the state, field by field, so that no proof unfolds a record update. -/

namespace Sys2Proof.Machine

section Gpr
@[simp] theorem State.gpr_r1 (s : State) : s.gpr .r1 = s.r1 := rfl
@[simp] theorem State.gpr_r2 (s : State) : s.gpr .r2 = s.r2 := rfl
end Gpr

section SetPc
variable (s : State) (v : PcWord)
@[simp] theorem State.setPc_pc : (s.setPc v).pc = v := rfl
@[simp] theorem State.setPc_r1 : (s.setPc v).r1 = s.r1 := rfl
@[simp] theorem State.setPc_r2 : (s.setPc v).r2 = s.r2 := rfl
@[simp] theorem State.setPc_mem : (s.setPc v).mem = s.mem := rfl
@[simp] theorem State.setPc_status : (s.setPc v).status = s.status := rfl
@[simp] theorem State.setPc_cause : (s.setPc v).cause = s.cause := rfl
@[simp] theorem State.setPc_steps : (s.setPc v).steps = s.steps := rfl
@[simp] theorem State.setPc_gpr (g : Gpr) : (s.setPc v).gpr g = s.gpr g := by cases g <;> rfl
end SetPc

section SetGpr
variable (s : State) (d : Gpr) (v : Byte)
@[simp] theorem State.setGpr_pc : (s.setGpr d v).pc = s.pc := by cases d <;> rfl
@[simp] theorem State.setGpr_mem : (s.setGpr d v).mem = s.mem := by cases d <;> rfl
@[simp] theorem State.setGpr_status : (s.setGpr d v).status = s.status := by cases d <;> rfl
@[simp] theorem State.setGpr_cause : (s.setGpr d v).cause = s.cause := by cases d <;> rfl
@[simp] theorem State.setGpr_steps : (s.setGpr d v).steps = s.steps := by cases d <;> rfl
@[simp] theorem State.setGpr_gpr_self : (s.setGpr d v).gpr d = v := by cases d <;> rfl
theorem State.setGpr_gpr_other {g : Gpr} (h : g ≠ d) : (s.setGpr d v).gpr g = s.gpr g := by
  cases d <;> cases g <;> first | rfl | exact absurd rfl h
end SetGpr

section SetMem
variable (s : State) (m : Memory)
@[simp] theorem State.setMem_pc : (s.setMem m).pc = s.pc := rfl
@[simp] theorem State.setMem_r1 : (s.setMem m).r1 = s.r1 := rfl
@[simp] theorem State.setMem_r2 : (s.setMem m).r2 = s.r2 := rfl
@[simp] theorem State.setMem_mem : (s.setMem m).mem = m := rfl
@[simp] theorem State.setMem_status : (s.setMem m).status = s.status := rfl
@[simp] theorem State.setMem_cause : (s.setMem m).cause = s.cause := rfl
@[simp] theorem State.setMem_steps : (s.setMem m).steps = s.steps := rfl
@[simp] theorem State.setMem_gpr (g : Gpr) : (s.setMem m).gpr g = s.gpr g := by cases g <;> rfl
end SetMem

section Raise
variable (s : State) (k : FaultKind)
@[simp] theorem State.raise_pc : (s.raise k).pc = s.pc := rfl
@[simp] theorem State.raise_r1 : (s.raise k).r1 = s.r1 := rfl
@[simp] theorem State.raise_r2 : (s.raise k).r2 = s.r2 := rfl
@[simp] theorem State.raise_mem : (s.raise k).mem = s.mem := rfl
@[simp] theorem State.raise_status : (s.raise k).status = .faulted := rfl
@[simp] theorem State.raise_cause : (s.raise k).cause = some k := rfl
@[simp] theorem State.raise_steps : (s.raise k).steps = s.steps := rfl
end Raise

section Halt
variable (s : State)
@[simp] theorem State.halt_pc : s.halt.pc = s.pc := rfl
@[simp] theorem State.halt_r1 : s.halt.r1 = s.r1 := rfl
@[simp] theorem State.halt_r2 : s.halt.r2 = s.r2 := rfl
@[simp] theorem State.halt_mem : s.halt.mem = s.mem := rfl
@[simp] theorem State.halt_status : s.halt.status = .halted := rfl
@[simp] theorem State.halt_cause : s.halt.cause = s.cause := rfl
@[simp] theorem State.halt_steps : s.halt.steps = s.steps := rfl
end Halt

section OrRaise
variable {α : Type} (s : State) (go : α → State)
@[simp] theorem State.orRaise_ok (a : α) : s.orRaise (.ok a) go = go a := rfl
@[simp] theorem State.orRaise_error (k : FaultKind) : s.orRaise (.error k) go = s.raise k := rfl
end OrRaise

end Sys2Proof.Machine
end

