-- ==== Sys2Proof/Laws/Exec.lean ====
section
/-! SUPPORT. What each shared operation can do, said once, and from it everything an instruction can do to the state. -/

namespace Sys2Proof.Machine

theorem orRaise_cases {α : Type} {s t : State} {r : Except FaultKind α} {go : α → State} (h : s.orRaise r go = t) :
    (∃ k, r = .error k ∧ t = s.raise k) ∨ (∃ a, r = .ok a ∧ t = go a) := by
  cases r with
  | error k => exact .inl ⟨k, rfl, h.symm⟩
  | ok a => exact .inr ⟨a, rfl, h.symm⟩

theorem regOperand_ok {b : Byte} {d : Gpr} : regOperand b = .ok d ↔ gprOf b = some d := by
  cases h : gprOf b <;> simp [regOperand, h]

theorem regOperand_error {b : Byte} {k : FaultKind} : regOperand b = .error k ↔ gprOf b = none ∧ k = .illegalRegister := by
  cases h : gprOf b <;> simp [regOperand, h, eq_comm]

theorem regOperands_ok {b1 b2 : Byte} {p : Gpr × Gpr} :
    regOperands b1 b2 = .ok p ↔ gprOf b1 = some p.1 ∧ gprOf b2 = some p.2 := by
  obtain ⟨d, r⟩ := p
  unfold regOperands
  split <;> simp_all

theorem regOperands_error {b1 b2 : Byte} {k : FaultKind} :
    regOperands b1 b2 = .error k ↔ (gprOf b1 = none ∨ gprOf b2 = none) ∧ k = .illegalRegister := by
  unfold regOperands
  cases h1 : gprOf b1 <;> cases h2 : gprOf b2 <;> simp [eq_comm]

theorem memRead_ok {s : State} {a v : Byte} : memRead s a = .ok v ↔ a.toNat < 8 ∧ v = s.mem.read a := by
  unfold memRead Config.dataLimit
  split <;> simp_all [eq_comm]

theorem memRead_error {s : State} {a : Byte} {k : FaultKind} :
    memRead s a = .error k ↔ 8 ≤ a.toNat ∧ k = .segmentationFault := by
  unfold memRead Config.dataLimit
  split <;> simp_all [eq_comm]

theorem memWrite_ok {s t : State} {a v : Byte} :
    memWrite s a v = .ok t ↔ a.toNat < 8 ∧ t = s.setMem (s.mem.write a v) := by
  unfold memWrite Config.dataLimit
  split <;> simp_all [eq_comm]

theorem memWrite_error {s : State} {a v : Byte} {k : FaultKind} :
    memWrite s a v = .error k ↔ 8 ≤ a.toNat ∧ k = .segmentationFault := by
  unfold memWrite Config.dataLimit
  split <;> simp_all [eq_comm]

@[simp] theorem npc_setGpr (s : State) (d : Gpr) (v : Byte) (op : Opcode) : npc (s.setGpr d v) op = npc s op := by
  simp [npc]

@[simp] theorem npc_setMem (s : State) (m : Memory) (op : Opcode) : npc (s.setMem m) op = npc s op := rfl

theorem arithRegister_cases {op : Opcode} {f : Byte → Byte → Except FaultKind Byte} {b1 b2 : Byte} {s t : State}
    (h : arithRegister op f b1 b2 s = t) :
    ((gprOf b1 = none ∨ gprOf b2 = none) ∧ t = s.raise .illegalRegister) ∨
      (∃ d r, gprOf b1 = some d ∧ gprOf b2 = some r ∧
        ((∃ k, f (s.gpr d) (s.gpr r) = .error k ∧ t = s.raise k) ∨
          (∃ v, f (s.gpr d) (s.gpr r) = .ok v ∧ t = (s.setGpr d v).setPc (npc s op)))) := by
  obtain ⟨k, hk, rfl⟩ | ⟨⟨d, r⟩, hp, h⟩ := orRaise_cases h
  · obtain ⟨hn, rfl⟩ := regOperands_error.mp hk
    exact .inl ⟨hn, rfl⟩
  · obtain ⟨h1, h2⟩ := regOperands_ok.mp hp
    refine .inr ⟨d, r, h1, h2, ?_⟩
    obtain ⟨k, hk, rfl⟩ | ⟨v, hv, rfl⟩ := orRaise_cases h.symm
    · exact .inl ⟨k, hk, rfl⟩
    · exact .inr ⟨v, hv, by simp [State.advance]⟩

theorem arithImmediate_cases {op : Opcode} {f : Byte → Byte → Except FaultKind Byte} {b imm : Byte} {s t : State}
    (h : arithImmediate op f b imm s = t) :
    (gprOf b = none ∧ t = s.raise .illegalRegister) ∨
      (∃ d, gprOf b = some d ∧
        ((∃ k, f (s.gpr d) imm = .error k ∧ t = s.raise k) ∨
          (∃ v, f (s.gpr d) imm = .ok v ∧ t = (s.setGpr d v).setPc (npc s op)))) := by
  obtain ⟨k, hk, rfl⟩ | ⟨d, hd, h⟩ := orRaise_cases h
  · obtain ⟨hn, rfl⟩ := regOperand_error.mp hk
    exact .inl ⟨hn, rfl⟩
  · refine .inr ⟨d, regOperand_ok.mp hd, ?_⟩
    obtain ⟨k, hk, rfl⟩ | ⟨v, hv, rfl⟩ := orRaise_cases h.symm
    · exact .inl ⟨k, hk, rfl⟩
    · exact .inr ⟨v, hv, by simp [State.advance]⟩

theorem branchIf_cases {op : Opcode} {cond : Byte → Bool} {b offset : Byte} {s t : State}
    (h : branchIf op cond b offset s = t) :
    (gprOf b = none ∧ t = s.raise .illegalRegister) ∨
      (∃ r, gprOf b = some r ∧
        t = s.setPc (if cond (s.gpr r) then branchTarget s op offset else npc s op)) := by
  obtain ⟨k, hk, rfl⟩ | ⟨r, hr, rfl⟩ := orRaise_cases h
  · obtain ⟨hn, rfl⟩ := regOperand_error.mp hk
    exact .inl ⟨hn, rfl⟩
  · refine .inr ⟨r, regOperand_ok.mp hr, ?_⟩
    split <;> rfl

theorem execLoad_cases {b a : Byte} {s t : State} (h : execLoad b a s = .next t) :
    (gprOf b = none ∧ t = s.raise .illegalRegister) ∨
      (∃ d, gprOf b = some d ∧
        ((8 ≤ a.toNat ∧ t = s.raise .segmentationFault) ∨
          (a.toNat < 8 ∧ t = (s.setGpr d (s.mem.read a)).setPc (npc s .load)))) := by
  simp only [execLoad, Host.Outcome.next.injEq] at h
  obtain ⟨k, hk, rfl⟩ | ⟨d, hd, h⟩ := orRaise_cases h
  · obtain ⟨hn, rfl⟩ := regOperand_error.mp hk
    exact .inl ⟨hn, rfl⟩
  · refine .inr ⟨d, regOperand_ok.mp hd, ?_⟩
    obtain ⟨k, hk, rfl⟩ | ⟨v, hv, rfl⟩ := orRaise_cases h.symm
    · obtain ⟨ha, rfl⟩ := memRead_error.mp hk
      exact .inl ⟨ha, rfl⟩
    · obtain ⟨ha, rfl⟩ := memRead_ok.mp hv
      exact .inr ⟨ha, by simp [State.advance]⟩

theorem execStore_cases {b a : Byte} {s t : State} (h : execStore b a s = .next t) :
    (gprOf b = none ∧ t = s.raise .illegalRegister) ∨
      (∃ r, gprOf b = some r ∧
        ((8 ≤ a.toNat ∧ t = s.raise .segmentationFault) ∨
          (a.toNat < 8 ∧ t = (s.setMem (s.mem.write a (s.gpr r))).setPc (npc s .store)))) := by
  simp only [execStore, Host.Outcome.next.injEq] at h
  obtain ⟨k, hk, rfl⟩ | ⟨r, hr, h⟩ := orRaise_cases h
  · obtain ⟨hn, rfl⟩ := regOperand_error.mp hk
    exact .inl ⟨hn, rfl⟩
  · refine .inr ⟨r, regOperand_ok.mp hr, ?_⟩
    obtain ⟨k, hk, rfl⟩ | ⟨u, hu, rfl⟩ := orRaise_cases h.symm
    · obtain ⟨ha, rfl⟩ := memWrite_error.mp hk
      exact .inl ⟨ha, rfl⟩
    · obtain ⟨ha, rfl⟩ := memWrite_ok.mp hu
      exact .inr ⟨ha, rfl⟩

/-- Every instruction answers a next state, at every state: none is refused and none stops the model (R76). -/
theorem exec_answers (i : Instr) (s : State) : ∃ t, exec i s = .next t := by
  cases i <;> exact ⟨_, rfl⟩

/-- Everything an instruction can do to the state: take a fault, halt, move the PC, write one register, or write one cell of the
Data Segment (R76). -/
theorem exec_cases {i : Instr} {s t : State} (h : exec i s = .next t) :
    (∃ k, t = s.raise k) ∨ (i = .halt ∧ t = s.halt) ∨ (∃ v, t = s.setPc v) ∨
      (∃ d x v, t = (s.setGpr d x).setPc v) ∨
      (∃ reg a r, i = .store reg a ∧ gprOf reg = some r ∧ a.toNat < 8 ∧
        t = (s.setMem (s.mem.write a (s.gpr r))).setPc (npc s .store)) := by
  have arith : ∀ {op f b1 b2}, arithRegister op f b1 b2 s = t →
      (∃ k, t = s.raise k) ∨ (∃ d x v, t = (s.setGpr d x).setPc v) := by
    intro op f b1 b2 h
    obtain ⟨-, rfl⟩ | ⟨d, r, -, -, ⟨k, -, rfl⟩ | ⟨v, -, rfl⟩⟩ := arithRegister_cases h
    exacts [.inl ⟨_, rfl⟩, .inl ⟨k, rfl⟩, .inr ⟨d, v, _, rfl⟩]
  have arithImm : ∀ {op f b imm}, arithImmediate op f b imm s = t →
      (∃ k, t = s.raise k) ∨ (∃ d x v, t = (s.setGpr d x).setPc v) := by
    intro op f b imm h
    obtain ⟨-, rfl⟩ | ⟨d, -, ⟨k, -, rfl⟩ | ⟨v, -, rfl⟩⟩ := arithImmediate_cases h
    exacts [.inl ⟨_, rfl⟩, .inl ⟨k, rfl⟩, .inr ⟨d, v, _, rfl⟩]
  have branch : ∀ {op c b off}, branchIf op c b off s = t → (∃ k, t = s.raise k) ∨ (∃ v, t = s.setPc v) := by
    intro op c b off h
    obtain ⟨-, rfl⟩ | ⟨r, -, rfl⟩ := branchIf_cases h
    exacts [.inl ⟨_, rfl⟩, .inr ⟨_, rfl⟩]
  cases i with
  | halt => cases h; exact .inr (.inl ⟨rfl, rfl⟩)
  | jump target => cases h; exact .inr (.inr (.inl ⟨_, rfl⟩))
  | load reg addr =>
    obtain ⟨-, rfl⟩ | ⟨d, -, ⟨-, rfl⟩ | ⟨-, rfl⟩⟩ := execLoad_cases h
    exacts [.inl ⟨_, rfl⟩, .inl ⟨_, rfl⟩, .inr (.inr (.inr (.inl ⟨d, _, _, rfl⟩)))]
  | store reg addr =>
    obtain ⟨-, rfl⟩ | ⟨r, hr, ⟨-, rfl⟩ | ⟨ha, rfl⟩⟩ := execStore_cases h
    exacts [.inl ⟨_, rfl⟩, .inl ⟨_, rfl⟩, .inr (.inr (.inr (.inr ⟨reg, addr, r, rfl, hr, ha, rfl⟩)))]
  | add | sub | mul | div | rem =>
    obtain h | h := arith (Host.Outcome.next.inj h)
    exacts [.inl h, .inr (.inr (.inr (.inl h)))]
  | addi | subi =>
    obtain h | h := arithImm (Host.Outcome.next.inj h)
    exacts [.inl h, .inr (.inr (.inr (.inl h)))]
  | beqz | beq =>
    obtain h | h := branch (Host.Outcome.next.inj h)
    exacts [.inl h, .inr (.inr (.inl h))]

end Sys2Proof.Machine
end

