-- ==== Sys2Proof/Laws/Cycle.lean ====
section
/-! SUPPORT. What a step of the core can do, said once. -/

namespace Sys2Proof.Machine

section CountStep
variable (p : Params) (t : State)
@[simp] theorem countStep_pc : (countStep p t).pc = t.pc := by unfold countStep; split <;> rfl
@[simp] theorem countStep_r1 : (countStep p t).r1 = t.r1 := by unfold countStep; split <;> rfl
@[simp] theorem countStep_r2 : (countStep p t).r2 = t.r2 := by unfold countStep; split <;> rfl
@[simp] theorem countStep_mem : (countStep p t).mem = t.mem := by unfold countStep; split <;> rfl
@[simp] theorem countStep_status : (countStep p t).status = t.status := by unfold countStep; split <;> rfl
@[simp] theorem countStep_cause : (countStep p t).cause = t.cause := by unfold countStep; split <;> rfl
end CountStep

/-- A faulting step is not counted (R18). -/
theorem countStep_faulted {p : Params} {t : State} (h : t.status = .faulted) : countStep p t = t := by
  unfold countStep; split <;> simp_all

/-- With no budget nothing is counted (R18). -/
theorem countStep_unbounded {p : Params} (t : State) (h : p.maxSteps = none) : countStep p t = t := by
  unfold countStep; split <;> simp_all

/-- With a budget a completed instruction is counted (R18). -/
theorem countStep_steps {p : Params} {t : State} (hp : p.maxSteps ≠ none) (h : t.status ≠ .faulted) :
    (countStep p t).steps = t.steps + 1 := by
  unfold countStep; split <;> simp_all

theorem budgetSpent_iff {p : Params} {s : State} : budgetSpent p s = true ↔ p.maxSteps = some s.steps := by
  simp [budgetSpent]

/-- In a terminal state the core does nothing (R73). -/
theorem cycle_terminal {p : Params} {s : State} (h : s.status ≠ .running) : cycle p s = .next s := by
  unfold cycle
  split
  · rfl
  · rfl
  · next hr => exact absurd hr h

/-- A step while running, in the order of its checks (R71, R107). -/
theorem cycle_running {p : Params} {s t : State} (hs : s.status = .running) (h : cycle p s = .next t) :
    (p.maxSteps = some s.steps ∧ t = s.raise .budgetExhausted) ∨
      (p.maxSteps ≠ some s.steps ∧
        ((∃ k, fetch p.opmap s = .error k ∧ t = s.raise k) ∨
          (∃ i u, fetch p.opmap s = .ok i ∧ exec i s = .next u ∧ t = countStep p u))) := by
  unfold cycle at h
  rw [hs] at h
  simp only at h
  split at h
  · next hb => cases h; exact .inl ⟨budgetSpent_iff.mp hb, rfl⟩
  · next hb =>
    refine .inr ⟨fun e => hb (budgetSpent_iff.mpr e), ?_⟩
    split at h
    · next k hk => cases h; exact .inl ⟨k, hk, rfl⟩
    · next i hi =>
      obtain ⟨u, hu⟩ := exec_answers i s
      rw [hu] at h
      cases h
      exact .inr ⟨i, u, hi, hu, rfl⟩

/-- A step is one of: nothing, a fault taken, or an instruction executed and counted. -/
theorem cycle_cases {p : Params} {s t : State} (h : cycle p s = .next t) :
    (s.status ≠ .running ∧ t = s) ∨ (s.status = .running ∧ ∃ k, t = s.raise k) ∨
      (s.status = .running ∧ p.maxSteps ≠ some s.steps ∧
        ∃ i u, fetch p.opmap s = .ok i ∧ exec i s = .next u ∧ t = countStep p u) := by
  by_cases hs : s.status = .running
  · obtain ⟨-, rfl⟩ | ⟨hb, ⟨k, -, rfl⟩ | hx⟩ := cycle_running hs h
    exacts [.inr (.inl ⟨hs, _, rfl⟩), .inr (.inl ⟨hs, k, rfl⟩), .inr (.inr ⟨hs, hb, hx⟩)]
  · rw [cycle_terminal hs] at h
    cases h
    exact .inl ⟨hs, rfl⟩

/-- A step that fetches an instruction executes it and counts it (R71 steps 7 and 8). -/
theorem cycle_of_fetch {p : Params} {s : State} {i : Instr} (hs : s.status = .running) (hb : p.maxSteps ≠ some s.steps)
    (hf : fetch p.opmap s = .ok i) : ∃ t, exec i s = .next t ∧ cycle p s = .next (countStep p t) := by
  obtain ⟨t, ht⟩ := exec_answers i s
  refine ⟨t, ht, ?_⟩
  have hb' : ¬budgetSpent p s = true := fun e => hb (budgetSpent_iff.mp e)
  simp [cycle, hs, hb', hf, ht]

/-- A fetch that fails is the fault the step takes (R71). -/
theorem cycle_of_fetch_error {p : Params} {s : State} {k : FaultKind} (hs : s.status = .running)
    (hb : p.maxSteps ≠ some s.steps) (hf : fetch p.opmap s = .error k) : cycle p s = .next (s.raise k) := by
  have hb' : ¬budgetSpent p s = true := fun e => hb (budgetSpent_iff.mp e)
  simp [cycle, hs, hb', hf]

/-- A run of at least one step, from its first step on. -/
theorem cycles_succ {p : Params} {n : Nat} {s t : State} (h : cycle p s = .next t) : cycles p (n + 1) s = cycles p n t := by
  rw [cycles, h]

end Sys2Proof.Machine
end

