-- ==== Sys2Proof/Laws/HostPort.lean ====
section
/-! SUPPORT. What each host operation can do, said once. -/

namespace Sys2Proof.Machine

theorem State.terminal_iff {s : State} : s.terminal = true ↔ s.status ≠ .running := by simp [State.terminal]

@[simp] theorem hostStatus_eq (s : State) : hostStatus s = s.status := rfl
@[simp] theorem hostCause_eq (s : State) : hostCause s = s.cause := rfl

/-- A host write is one between runs, of one cell (R42). -/
theorem hostWrite_some {a v : Byte} {s t : State} :
    hostWrite a v s = some t ↔ s.status ≠ .running ∧ t = s.setMem (s.mem.write a v) := by
  by_cases h : s.status = .running <;> simp [hostWrite, State.terminal, h, eq_comm]

/-- A host read is one between runs (R42). -/
theorem hostRead_some {a v : Byte} {s : State} : hostRead a s = some v ↔ s.status ≠ .running ∧ v = s.mem.read a := by
  by_cases h : s.status = .running <;> simp [hostRead, State.terminal, h, eq_comm]

/-- A reset by the host is one between runs (R120, D16). -/
theorem restart_some {s t : State} : restart s = some t ↔ s.status ≠ .running ∧ t = s.afterReset := by
  by_cases h : s.status = .running <;> simp [restart, State.terminal, h, eq_comm]

/-- A result is one of a run that has ended (R123). -/
theorem runResult_some {s : State} {r : RunResult} :
    runResult s = some r ↔ s.status ≠ .running ∧ r = ⟨s.mem, s.status, s.cause⟩ := by
  by_cases h : s.status = .running <;> simp [runResult, State.terminal, h, eq_comm]

end Sys2Proof.Machine
end

