-- ==== Sys2Proof/Laws/Memory.lean ====
section
/-! SUPPORT. Memory: what a read gives after a write, and that every operation that makes a memory keeps or makes the
canonical form. -/

namespace Sys2Proof.Machine

theorem Memory.read_erase (m : Memory) (a b : Byte) :
    (m.erase a).read b = if b = a then Memory.unlisted else m.read b := by
  induction m with
  | nil => simp [Memory.erase, Memory.read]
  | cons c m ih =>
    obtain ⟨k, v⟩ := c
    have toNat_ne : b ≠ a → b.toNat ≠ a.toNat := fun h e => h (BitVec.eq_of_toNat_eq e)
    by_cases hk : k = a.toNat
    · simp only [Memory.erase, hk, if_true, ih, Memory.read]
      by_cases hb : b = a
      · simp [hb]
      · rw [if_neg hb, if_neg hb, if_neg (Ne.symm (toNat_ne hb))]
    · simp only [Memory.erase, if_neg hk, Memory.read, ih]
      by_cases hb : b = a
      · subst hb
        simp [hk]
      · simp [hb]

theorem Memory.read_insert (m : Memory) (a x b : Byte) :
    ((m.erase a).insert a x).read b = if b = a then x else m.read b := by
  induction m with
  | nil =>
    by_cases hb : b = a
    · simp [Memory.erase, Memory.insert, Memory.read, hb]
    · have : a.toNat ≠ b.toNat := fun e => hb (BitVec.eq_of_toNat_eq e.symm)
      simp [Memory.erase, Memory.insert, Memory.read, hb, this]
  | cons c m ih =>
    obtain ⟨k, v⟩ := c
    have toNat_ne : b ≠ a → a.toNat ≠ b.toNat := fun h e => h (BitVec.eq_of_toNat_eq e.symm)
    by_cases hk : k = a.toNat
    · simp only [Memory.erase, hk, if_true, ih, Memory.read]
      by_cases hb : b = a
      · simp [hb]
      · simp [hb, toNat_ne hb]
    · simp only [Memory.erase, if_neg hk, Memory.insert]
      split
      · simp only [Memory.read, Memory.read_erase]
        by_cases hb : b = a
        · simp [hb]
        · simp [hb, toNat_ne hb]
      · simp only [Memory.read, ih]
        by_cases hb : b = a
        · subst hb
          simp [hk]
        · simp [hb]

/-- A read after a write: the written value at the written cell, and what stood there before everywhere else. It
holds of every list of cells, canonical or not. -/
theorem Memory.read_write (m : Memory) (a x b : Byte) :
    (m.write a x).read b = if b = a then x else m.read b := by
  unfold Memory.write
  split
  · next h => rw [Memory.read_erase, h]
  · exact Memory.read_insert m a x b

/-- The canonical form of a list with a first pair, over plain numbers. -/
theorem Memory.wfFrom_cons {lo k : Nat} {v : Byte} {m : Memory} :
    Memory.wfFrom lo ((k, v) :: m) = true ↔
      lo ≤ k ∧ k < 256 ∧ v ≠ Memory.unlisted ∧ Memory.wfFrom (k + 1) m = true := by
  simp only [Memory.wfFrom, Bool.and_eq_true, decide_eq_true_eq, and_assoc]
  exact Iff.rfl

theorem Memory.wfFrom_mono {m : Memory} {lo lo' : Nat} (hle : lo' ≤ lo) (h : Memory.wfFrom lo m = true) :
    Memory.wfFrom lo' m = true := by
  cases m with
  | nil => rfl
  | cons c m =>
    simp only [Memory.wfFrom, Bool.and_eq_true, decide_eq_true_eq] at h ⊢
    exact ⟨⟨⟨by omega, h.1.1.2⟩, h.1.2⟩, h.2⟩

theorem Memory.wfFrom_erase {m : Memory} {lo : Nat} (a : Byte) (h : Memory.wfFrom lo m = true) :
    Memory.wfFrom lo (m.erase a) = true := by
  induction m generalizing lo with
  | nil => rfl
  | cons c m ih =>
    obtain ⟨k, v⟩ := c
    simp only [Memory.wfFrom, Bool.and_eq_true, decide_eq_true_eq] at h
    by_cases hk : k = a.toNat
    · simp only [Memory.erase, hk, if_true]
      exact ih (Memory.wfFrom_mono (by omega) h.2)
    · simp only [Memory.erase, if_neg hk, Memory.wfFrom, Bool.and_eq_true, decide_eq_true_eq]
      exact ⟨h.1, ih h.2⟩

theorem Memory.wfFrom_insert {m : Memory} {lo : Nat} (a x : Byte) (hx : x ≠ Memory.unlisted) (ha : lo ≤ a.toNat)
    (h : Memory.wfFrom lo m = true) : Memory.wfFrom lo ((m.erase a).insert a x) = true := by
  have hlt : a.toNat < Config.memSize := a.isLt
  induction m generalizing lo with
  | nil => simp [Memory.erase, Memory.insert, Memory.wfFrom, ha, hlt, hx]
  | cons c m ih =>
    obtain ⟨k, v⟩ := c
    have hc := h
    simp only [Memory.wfFrom, Bool.and_eq_true, decide_eq_true_eq] at h
    by_cases hk : k = a.toNat
    · simp only [Memory.erase, hk, if_true]
      exact ih ha (Memory.wfFrom_mono (by omega) h.2)
    · simp only [Memory.erase, if_neg hk, Memory.insert]
      split
      · simp only [Memory.wfFrom, Bool.and_eq_true, decide_eq_true_eq]
        exact ⟨⟨⟨ha, hlt⟩, hx⟩, ⟨⟨by omega, h.1.1.2⟩, h.1.2⟩, Memory.wfFrom_erase a h.2⟩
      · simp only [Memory.wfFrom, Bool.and_eq_true, decide_eq_true_eq]
        exact ⟨h.1, ih (by omega) h.2⟩

/-- Writing a cell keeps the canonical form. -/
theorem Memory.wf_write {m : Memory} (a x : Byte) (h : m.wf = true) : (m.write a x).wf = true := by
  unfold Memory.write
  split
  · exact Memory.wfFrom_erase a h
  · next hx => exact Memory.wfFrom_insert a x hx (Nat.zero_le _) h

/-- Writing consecutive cells keeps the canonical form. -/
theorem Memory.wf_writeBytes {m : Memory} (a : Nat) (bs : List Byte) (h : m.wf = true) :
    (m.writeBytes a bs).wf = true := by
  induction bs generalizing m a with
  | nil => exact h
  | cons b bs ih =>
    unfold Memory.writeBytes
    split
    · exact ih _ (Memory.wf_write _ _ h)
    · exact h

theorem Memory.wfFrom_ofBytes (a : Nat) (bs : List Byte) (h : a + bs.length ≤ Config.memSize) :
    Memory.wfFrom a (Memory.ofBytes a bs) = true := by
  induction bs generalizing a with
  | nil => rfl
  | cons b bs ih =>
    rw [List.length_cons] at h
    have hrest := ih (a + 1) (by omega)
    unfold Memory.ofBytes
    split
    · exact Memory.wfFrom_mono (Nat.le_succ a) hrest
    · next hb =>
      simp only [Memory.wfFrom, Bool.and_eq_true, decide_eq_true_eq]
      exact ⟨⟨⟨Nat.le_refl a, by omega⟩, hb⟩, hrest⟩

/-- The memory a host image makes is in canonical form. -/
theorem Memory.wf_ofBytes (image : List Byte) (h : image.length = Config.memSize) :
    (Memory.ofBytes 0 image).wf = true :=
  Memory.wfFrom_ofBytes 0 image (by omega)

/-- Memory as reset leaves it is in canonical form. -/
theorem State.reset_mem_wf : State.reset.mem.wf = true := rfl

end Sys2Proof.Machine
end

