-- ==== Sys2Proof/Laws/PerInstr.lean ====
section
/-! SUPPORT. Statements about each instruction as syntax. Slot: the encoding of an instruction begins with its opcode byte, fills
its slot, and has all the needed bytes (R50, R52, R53). -/

namespace Sys2Proof.Laws.Slot

/-- The instruction's bytes begin with its operation's opcode byte, are as many as its slot is wide, and no fewer than
the core reads. -/
def Statement (i : Instr) : Prop :=
  ∀ m : OpMap, (encode m i).head? = some (m.byteOf i.opcode) ∧ (encode m i).length = i.opcode.width ∧
    i.opcode.need ≤ i.opcode.width

/-- No operation reads past its slot (R52, R53). -/
theorem need_le_width (op : Opcode) : op.need ≤ op.width := by cases op <;> decide

theorem halt : Statement .halt := fun _ => ⟨rfl, rfl, need_le_width _⟩
theorem load (reg addr : Byte) : Statement (.load reg addr) := fun _ => ⟨rfl, rfl, need_le_width _⟩
theorem store (reg addr : Byte) : Statement (.store reg addr) := fun _ => ⟨rfl, rfl, need_le_width _⟩
theorem add (reg1 reg2 : Byte) : Statement (.add reg1 reg2) := fun _ => ⟨rfl, rfl, need_le_width _⟩
theorem sub (reg1 reg2 : Byte) : Statement (.sub reg1 reg2) := fun _ => ⟨rfl, rfl, need_le_width _⟩
theorem mul (reg1 reg2 : Byte) : Statement (.mul reg1 reg2) := fun _ => ⟨rfl, rfl, need_le_width _⟩
theorem div (reg1 reg2 : Byte) : Statement (.div reg1 reg2) := fun _ => ⟨rfl, rfl, need_le_width _⟩
theorem rem (reg1 reg2 : Byte) : Statement (.rem reg1 reg2) := fun _ => ⟨rfl, rfl, need_le_width _⟩
theorem addi (reg imm : Byte) : Statement (.addi reg imm) := fun _ => ⟨rfl, rfl, need_le_width _⟩
theorem subi (reg imm : Byte) : Statement (.subi reg imm) := fun _ => ⟨rfl, rfl, need_le_width _⟩
theorem jump (target : Byte) : Statement (.jump target) := fun _ => ⟨rfl, rfl, need_le_width _⟩
theorem beqz (reg offset : Byte) : Statement (.beqz reg offset) := fun _ => ⟨rfl, rfl, need_le_width _⟩
theorem beq (reg constant offset : Byte) : Statement (.beq reg constant offset) := fun _ => ⟨rfl, rfl, need_le_width _⟩

end Sys2Proof.Laws.Slot
end

