-- ==== Sys2Proof/Tests/Slice0.lean ====
section
/-! SUPPORT. Small tests: ill-formed terms, decoding of words written out from the spec, one or two single steps for each instruction
with results from the spec's vectors (95_test_vectors.md), and a witness for the hypotheses of every statement. -/

namespace Sys2Proof.Tests

open Sys2Proof Sys2Proof.Machine

/-- A running machine with the Data Segment `data` from cell 0 and the bytes `code` at the PC. -/
def mach (pc : PcWord) (r1 r2 : Byte) (code data : List Byte) : State :=
  { State.reset with pc := pc, r1 := r1, r2 := r2, mem := (Memory.ofBytes 0 data).writeBytes pc.toNat code }

/-- The parameters with a budget. -/
def budget (n : Nat) : Params := { defaultParams with maxSteps := some n }

/-- A machine with a number of completed instructions. -/
def counted (n : Nat) (s : State) : State := { s with steps := n }

/-- The next state of an outcome. -/
def nextOf : Host.Outcome State Fault Refusal → Option State
  | .next t => some t
  | .fault _ => none
  | .refused _ => none

/-- What a step leaves in PC, R1, R2, STATUS and CAUSE. -/
def regsAfter (s : State) : Option (PcWord × Byte × Byte × Status × Option FaultKind) :=
  (nextOf (step s)).map fun t => (t.pc, t.r1, t.r2, t.status, t.cause)

/-- What a step leaves in one cell, with PC and STATUS. -/
def cellAfter (s : State) (a : Byte) : Option (Byte × PcWord × Status) :=
  (nextOf (step s)).map fun t => (t.mem.read a, t.pc, t.status)

section IllFormed

/-- R55: slot 0, the PC's, is no register operand. -/
theorem test_illformed_register_zero : ¬(Instr.load 0 1).WellFormed := by decide
/-- R55: the second register byte of layout RR is checked too. -/
theorem test_illformed_second_register : ¬(Instr.add 1 3).WellFormed := by decide
/-- R54: two operations may not share an opcode byte. -/
theorem test_illformed_opmap_shared : ¬({ defaultOpMap with sub := 0x03 } : OpMap).WF := by decide
/-- R54: no operation may take HALT's opcode byte. -/
theorem test_illformed_opmap_halt : ¬({ defaultOpMap with beq := 0xFF } : OpMap).WF := by decide
/-- R58: an address of 8 or more is a legal encoding. -/
theorem test_wellformed_address : (Instr.store 2 128).WellFormed := by decide

end IllFormed

section Decoding

/-- V-H2 -/
theorem test_decode_halt : decode defaultOpMap [0b11111111, 0xAB, 0xCD] = .ok .halt := by decide
/-- V-M2 -/
theorem test_decode_load : decode defaultOpMap [0b00000001, 0b00000010, 0b00000111] = .ok (.load 2 7) := by decide
/-- V-M5 -/
theorem test_decode_store : decode defaultOpMap [0b00000010, 0b00000001, 0b00000000] = .ok (.store 1 0) := by decide
/-- V-A5 -/
theorem test_decode_add : decode defaultOpMap [0b00000011, 0b00000010, 0b00000001] = .ok (.add 2 1) := by decide
/-- V-A10 -/
theorem test_decode_sub : decode defaultOpMap [0b00000100, 0b00000010, 0b00000001] = .ok (.sub 2 1) := by decide
/-- V-A11 -/
theorem test_decode_mul : decode defaultOpMap [0b00000101, 0b00000001, 0b00000010] = .ok (.mul 1 2) := by decide
/-- V-A16 -/
theorem test_decode_div : decode defaultOpMap [0b00000110, 0b00000001, 0b00000010] = .ok (.div 1 2) := by decide
/-- V-A31 -/
theorem test_decode_rem : decode defaultOpMap [0b00000111, 0b00000010, 0b00000001] = .ok (.rem 2 1) := by decide
/-- V-I1 -/
theorem test_decode_addi : decode defaultOpMap [0b00001000, 0b00000001, 0b01100100] = .ok (.addi 1 100) := by decide
/-- V-I8 -/
theorem test_decode_subi : decode defaultOpMap [0b00001001, 0b00000010, 0b11111111] = .ok (.subi 2 255) := by decide
/-- V-F7: JUMP needs two bytes only. -/
theorem test_decode_jump : decode defaultOpMap [0b00001010, 0b11111111] = .ok (.jump 255) := by decide
/-- V-J5 -/
theorem test_decode_beqz : decode defaultOpMap [0b00001011, 0b00000001, 0b00000011] = .ok (.beqz 1 3) := by decide
/-- V-J13 -/
theorem test_decode_beq : decode defaultOpMap [0b00001100, 0b00000001, 0b00000100, 0b00000011] = .ok (.beq 1 4 3) := by
  decide
/-- V-J18: a BEQ with its fourth byte missing. -/
theorem test_decode_beq_short : decode defaultOpMap [0x0C, 0x01, 0x00] = .error .operandsMissing := by decide
/-- V-F9: an unknown opcode is rejected as such, however few bytes follow. -/
theorem test_decode_illegal : decode defaultOpMap [0x00] = .error .illegalOpcode := by decide
/-- R57: 0x0D and 0xFE, the ends of the upper illegal range of the default map. -/
theorem test_decode_illegal_ends : decode defaultOpMap [0x0D, 1, 1] = .error .illegalOpcode ∧
    decode defaultOpMap [0xFE, 1, 1] = .error .illegalOpcode := by decide
/-- opcode_table.json: the opcode is the lowest byte of the table's word, the first operand the next. -/
theorem test_table_word : decodeTableWord 32 0x0304010C = some (.beq 1 4 3) ∧ decodeTableWord 8 0x01 = some (.load 0 0) := by
  decide

end Decoding

section Steps

/-- V-H1, V-H2 -/
theorem test_halt : regsAfter (mach 8 0 0 [0xFF, 0xAB, 0xCD] []) = some (8, 0, 0, .halted, none) := by decide
/-- V-H4: in the last cell. -/
theorem test_halt_last_cell : regsAfter (mach 255 3 4 [0xFF] []) = some (255, 3, 4, .halted, none) := by decide
/-- V-M2 -/
theorem test_load : regsAfter (mach 8 0 5 [0x01, 0x02, 0x07] [0, 0, 0, 0, 0, 0, 0, 0xFF]) = some (11, 0, 255, .running, none) := by
  decide
/-- V-M3 -/
theorem test_load_outside : regsAfter (mach 8 0 0 [0x01, 0x01, 0x08] []) = some (8, 0, 0, .faulted, some .segmentationFault) := by
  decide
/-- V-M6 -/
theorem test_store : cellAfter (mach 11 0 9 [0x02, 0x02, 0x07] []) 7 = some (9, 14, .running) := by decide
/-- V-M8 -/
theorem test_store_outside : cellAfter (mach 11 0 1 [0x02, 0x02, 0x80] []) 128 = some (0, 11, .faulted) := by decide
/-- V-A4: both sources are the old value. -/
theorem test_add_same : regsAfter (mach 8 200 9 [0x03, 0x01, 0x01] []) = some (11, 144, 9, .running, none) := by decide
/-- V-A2 -/
theorem test_add_wraps : regsAfter (mach 8 255 1 [0x03, 0x01, 0x02] []) = some (11, 0, 1, .running, none) := by decide
/-- V-A10 -/
theorem test_sub_into_r2 : regsAfter (mach 8 5 3 [0x04, 0x02, 0x01] []) = some (11, 5, 254, .running, none) := by decide
/-- V-A8 -/
theorem test_sub_wraps : regsAfter (mach 8 0 255 [0x04, 0x01, 0x02] []) = some (11, 1, 255, .running, none) := by decide
/-- V-A13 -/
theorem test_mul_low_byte : regsAfter (mach 8 255 255 [0x05, 0x01, 0x02] []) = some (11, 1, 255, .running, none) := by decide
/-- V-A11 -/
theorem test_mul : regsAfter (mach 8 20 15 [0x05, 0x01, 0x02] []) = some (11, 44, 15, .running, none) := by decide
/-- V-A18 -/
theorem test_div : regsAfter (mach 8 255 2 [0x06, 0x01, 0x02] []) = some (11, 127, 2, .running, none) := by decide
/-- V-A21 -/
theorem test_div_zero : regsAfter (mach 8 44 0 [0x06, 0x01, 0x02] []) = some (8, 44, 0, .faulted, some .arithmeticFault) := by
  decide
/-- V-A31: the destination is R2 and the divisor R1. -/
theorem test_rem_into_r2 : regsAfter (mach 8 4 10 [0x07, 0x02, 0x01] []) = some (11, 4, 2, .running, none) := by decide
/-- V-A33: the register check comes before the divisor's. -/
theorem test_rem_register_first : regsAfter (mach 8 0 0 [0x07, 0x01, 0x00] []) = some (8, 0, 0, .faulted, some .illegalRegister) := by
  decide
/-- V-I5: the immediate is unsigned. -/
theorem test_addi : regsAfter (mach 8 10 0 [0x08, 0x01, 0xFF] []) = some (11, 9, 0, .running, none) := by decide
/-- V-F10: the PC leaves memory without wrapping. -/
theorem test_addi_last : regsAfter (mach 253 0 0 [0x08, 0x01, 0x05] []) = some (256, 5, 0, .running, none) := by decide
/-- V-I8 -/
theorem test_subi : regsAfter (mach 8 0 0 [0x09, 0x02, 0xFF] []) = some (11, 0, 1, .running, none) := by decide
/-- V-J1 -/
theorem test_jump : regsAfter (mach 20 1 2 [0x0A, 0x0B, 0x00] []) = some (11, 1, 2, .running, none) := by decide
/-- V-J3: the target is not checked. -/
theorem test_jump_low : regsAfter (mach 8 0 0 [0x0A, 0x00, 0x00] []) = some (0, 0, 0, .running, none) := by decide
/-- V-J8: the offset is unsigned. -/
theorem test_beqz_forward : regsAfter (mach 11 0 0 [0x0B, 0x01, 0x80] []) = some (142, 0, 0, .running, none) := by decide
/-- V-J11: the largest PC there is. -/
theorem test_beqz_largest : regsAfter (mach 253 0 0 [0x0B, 0x01, 0xFF] []) = some (511, 0, 0, .running, none) := by decide
/-- V-J13 -/
theorem test_beq_taken : regsAfter (mach 38 4 0 [0x0C, 0x01, 0x04, 0x03] []) = some (45, 4, 0, .running, none) := by decide
/-- V-J14 -/
theorem test_beq_not_taken : regsAfter (mach 38 2 0 [0x0C, 0x01, 0x04, 0x03] []) = some (42, 2, 0, .running, none) := by decide
/-- V-F4 -/
theorem test_fetch_low : regsAfter (mach 7 0 0 [0xFF] []) = some (7, 0, 0, .faulted, some .fetchOutOfBounds) := by decide
/-- V-F5 -/
theorem test_fetch_high : regsAfter (mach 256 0 0 [] []) = some (256, 0, 0, .faulted, some .fetchOutOfBounds) := by decide
/-- V-F6 -/
theorem test_operand_bound : regsAfter (mach 254 0 0 [0x01, 0x01] []) = some (254, 0, 0, .faulted, some .fetchOutOfBounds) := by
  decide
/-- V-F12: the budget is checked first. -/
theorem test_budget_first : (nextOf (cycle (budget 1) (counted 1 (mach 7 0 0 [] [])))).map (fun t => (t.cause, t.steps)) =
    some (some .budgetExhausted, 1) := by decide
/-- R18: HALT is counted too. -/
theorem test_budget_counts_halt : (nextOf (cycle (budget 1) (mach 8 0 0 [0xFF] []))).map (fun t => (t.status, t.steps)) =
    some (.halted, 1) := by decide

end Steps

section Host

/-- R16, R17: the codes. -/
theorem test_codes : [Status.running, .halted, .faulted].map Status.code = [0, 1, 2] ∧
    [none, some FaultKind.segmentationFault, some .illegalOpcode, some .arithmeticFault, some .fetchOutOfBounds,
      some .illegalRegister, some .budgetExhausted].map causeCode = [0, 1, 2, 3, 4, 5, 6] := by decide
/-- R42: a write lands between runs, and a write of 0 keeps memory canonical. -/
theorem test_host_write : (hostWrite 3 0 { mach 8 0 0 [] [1, 2, 3, 4] with status := .halted }).map (fun t => t.mem) =
    some [(0, 1), (1, 2), (2, 3)] := by decide

/-- R16: the host reads STATUS while the run is in progress, when a run has no result yet (R123). -/
theorem test_host_status_running : hostStatus (mach 8 0 0 [] []) = .running ∧ runResult (mach 8 0 0 [] []) = none := by decide

end Host

section Witnesses

theorem names_r1 : Names 1 .r1 := .inl ⟨rfl, rfl⟩
theorem names_r2 : Names 2 .r2 := .inr ⟨rfl, rfl⟩
theorem names_none_zero : NamesNone 0 := ⟨by decide, by decide⟩
theorem names_none_three : NamesNone 3 := ⟨by decide, by decide⟩
theorem names_none_last : NamesNone 255 := ⟨by decide, by decide⟩

/-- DecodeEncodeAgree, and the opcode map of every encoding clause. -/
theorem witness_opmap : defaultOpMap.WF ∧ ({ defaultOpMap with load := 0xFE, beq := 0x00 } : OpMap).WF := by decide
theorem witness_EncodeDecodeAgree : decode defaultOpMap [0x0A, 0x0B] = .ok (.jump 11) := by decide
theorem witness_UnusedBytesIgnored : decode defaultOpMap [0x0A, 0x0B, 0x00] = .ok (.jump 11) ∧
    ([0x0A, 0x0B, 0x07] : List Byte).take (Instr.jump 11).opcode.need = [0x0A, 0x0B, 0x00].take (Instr.jump 11).opcode.need := by decide
/-- LoadRule and StoreRule: the last legal address, the first illegal one, and the register bytes beside 1 and 2. -/
theorem witness_LoadStoreRule : (Names 1 .r1 ∧ (7 : Byte).toNat < 8) ∧ (Names 2 .r2 ∧ 8 ≤ (8 : Byte).toNat) ∧
    NamesNone 0 ∧ NamesNone 3 ∧ NamesNone 255 :=
  ⟨⟨names_r1, by decide⟩, ⟨names_r2, by decide⟩, names_none_zero, names_none_three, names_none_last⟩
/-- AddRule, SubRule, MulRule: the same register twice, different ones, and one invalid byte in each place. -/
theorem witness_RegisterArithmetic : (Names 1 .r1 ∧ Names 1 .r1) ∧ (Names 2 .r2 ∧ Names 1 .r1) ∧
    (NamesNone 0 ∨ NamesNone 1) ∧ (NamesNone 2 ∨ NamesNone 3) :=
  ⟨⟨names_r1, names_r1⟩, ⟨names_r2, names_r1⟩, .inl names_none_zero, .inr names_none_three⟩
/-- DivRule, RemRule, ArithmeticFaultExactly: a divisor of 1 and one of 0. -/
theorem witness_Division : (Names 1 .r1 ∧ Names 2 .r2 ∧ (mach 8 9 1 [] []).gpr .r2 ≠ 0) ∧
    (Names 1 .r1 ∧ Names 2 .r2 ∧ (mach 8 9 0 [] []).gpr .r2 = 0) :=
  ⟨⟨names_r1, names_r2, by decide⟩, ⟨names_r1, names_r2, by decide⟩⟩
/-- AddiRule, SubiRule. -/
theorem witness_ImmediateArithmetic : Names 2 .r2 ∧ NamesNone 3 := ⟨names_r2, names_none_three⟩
/-- BeqzRule: taken, at the last place a BEQZ fits, and not taken. -/
theorem witness_BeqzRule : (Names 1 .r1 ∧ (mach 253 0 0 [] []).gpr .r1 = 0 ∧ (mach 253 0 0 [] []).pc.toNat + 3 ≤ 256) ∧ (Names 1 .r1 ∧ (mach 8 1 0 [] []).gpr .r1 ≠ 0) ∧
    NamesNone 0 :=
  ⟨⟨names_r1, by decide, by decide⟩, ⟨names_r1, by decide⟩, names_none_zero⟩
/-- BeqRule: taken, not taken, an invalid byte, and a BEQ whose fourth byte is missing. -/
theorem witness_BeqRule : (Names 2 .r2 ∧ (mach 252 0 255 [] []).gpr .r2 = 255 ∧ (mach 252 0 255 [] []).pc.toNat + 4 ≤ 256) ∧
    (Names 2 .r2 ∧ (mach 8 0 254 [] []).gpr .r2 ≠ 255) ∧
    NamesNone 3 ∧
    (defaultParams.opmap.WF ∧ Fetching defaultParams (mach 253 0 0 [0x0C, 1, 0] []) ∧
      253 ≤ (mach 253 0 0 [0x0C, 1, 0] []).pc.toNat ∧ (mach 253 0 0 [0x0C, 1, 0] []).pc.toNat ≤ 255 ∧
      cellAt (mach 253 0 0 [0x0C, 1, 0] []) (mach 253 0 0 [0x0C, 1, 0] []).pc.toNat = defaultParams.opmap.beq) :=
  ⟨⟨names_r2, by decide, by decide⟩, ⟨names_r2, by decide⟩, names_none_three, by decide, ⟨rfl, by decide⟩, by decide, by decide, by decide⟩
/-- InvalidRegisterFaults: an ill-formed instruction, and a well-formed one that takes another fault. -/
theorem witness_InvalidRegisterFaults : ¬(Instr.div 1 0).WellFormed ∧ (Instr.div 1 2).WellFormed ∧
    (mach 8 1 0 [] []).status = .running ∧ ∃ t, exec (.div 1 2) (mach 8 1 0 [] []) = .next t ∧ t.status = .faulted :=
  ⟨by decide, by decide, rfl, _, rfl, rfl⟩
theorem witness_StepRunsDecoded : (mach 8 0 0 [0x03, 2, 1] []).status = .running ∧ 8 ≤ (mach 8 0 0 [0x03, 2, 1] []).pc.toNat ∧
    (mach 8 0 0 [0x03, 2, 1] []).pc.toNat ≤ 255 ∧ decode defaultOpMap (window (mach 8 0 0 [0x03, 2, 1] [])) = .ok (.add 2 1) ∧
    Fetching (budget 4) (mach 8 0 0 [0x03, 2, 1] []) :=
  ⟨rfl, by decide, by decide, by decide, rfl, by decide⟩
/-- CycleRunsInstructionAtPc, at the last place a JUMP fits. -/
theorem witness_CycleRunsInstructionAtPc : (budget 4).opmap.WF ∧ Fetching (budget 4) (mach 254 0 0 [0x0A, 9] []) ∧
    InstructionAtPc (budget 4).opmap (.jump 9) (mach 254 0 0 [0x0A, 9] []) :=
  ⟨by decide, ⟨rfl, by decide⟩, by unfold InstructionAtPc; decide⟩
theorem witness_PlacedWordRuns : decodeTableWord 24 0x640108 = some (.addi 1 100) := by decide
/-- SpentBudgetFaults: a budget of 0, and one that is not spent with a step that faults. -/
theorem witness_SpentBudgetFaults : ((mach 8 0 0 [] []).status = .running ∧ (budget 0).maxSteps = some (mach 8 0 0 [] []).steps) ∧
    (Fetching (budget 1) (mach 7 0 0 [] []) ∧
      ∃ t, cycle (budget 1) (mach 7 0 0 [] []) = .next t ∧ t.status = .faulted) :=
  ⟨⟨rfl, rfl⟩, ⟨rfl, by decide⟩, _, rfl, rfl⟩
/-- FetchGuardFaults and SegmentationFaultExactly's fetch: a PC of 7 and one of 256. -/
theorem witness_FetchGuardFaults : (Fetching defaultParams (mach 7 0 0 [] []) ∧ (mach 7 0 0 [] []).pc.toNat < 8) ∧
    (Fetching defaultParams (mach 256 0 0 [] []) ∧ 255 < (mach 256 0 0 [] []).pc.toNat) :=
  ⟨⟨⟨rfl, by decide⟩, by decide⟩, ⟨⟨rfl, by decide⟩, by decide⟩⟩
/-- IllegalOpcodeFaults, in the last cell. -/
theorem witness_IllegalOpcodeFaults : Fetching defaultParams (mach 255 0 0 [0x0D] []) ∧ 8 ≤ (mach 255 0 0 [0x0D] []).pc.toNat ∧
    (mach 255 0 0 [0x0D] []).pc.toNat ≤ 255 ∧
    ∀ op, defaultParams.opmap.byteOf op ≠ cellAt (mach 255 0 0 [0x0D] []) (mach 255 0 0 [0x0D] []).pc.toNat :=
  ⟨⟨rfl, by decide⟩, by decide, by decide, fun op => by cases op <;> decide⟩
/-- OperandBoundFaults, for a JUMP at 255. -/
theorem witness_OperandBoundFaults : defaultParams.opmap.WF ∧ Fetching defaultParams (mach 255 0 0 [0x0A] []) ∧
    8 ≤ (mach 255 0 0 [0x0A] []).pc.toNat ∧ (mach 255 0 0 [0x0A] []).pc.toNat ≤ 255 ∧
    cellAt (mach 255 0 0 [0x0A] []) (mach 255 0 0 [0x0A] []).pc.toNat = defaultParams.opmap.byteOf .jump ∧
    255 < (mach 255 0 0 [0x0A] []).pc.toNat + Opcode.jump.need - 1 :=
  ⟨by decide, ⟨rfl, by decide⟩, by decide, by decide, by decide, by decide⟩
/-- SegmentationFaultExactly: an instruction that takes the fault. -/
theorem witness_SegmentationFaultExactly : (mach 8 0 0 [] []).status = .running ∧
    ∃ t, exec (.store 1 8) (mach 8 0 0 [] []) = .next t ∧ t.status = .faulted ∧ t.cause = some .segmentationFault :=
  ⟨rfl, _, rfl, rfl, rfl⟩
/-- ArithmeticFaultExactly: an instruction that takes the fault. -/
theorem witness_ArithmeticFaultExactly : (mach 8 0 0 [] []).status = .running ∧
    ∃ t, exec (.rem 1 1) (mach 8 0 0 [] []) = .next t ∧ t.status = .faulted ∧ t.cause = some .arithmeticFault :=
  ⟨rfl, _, rfl, rfl, rfl⟩
/-- FaultsOnlyForTheirReason and FaultChangesOnlyStatusAndCause: a LOAD of cell 9 at the PC. -/
theorem witness_FaultingStep : (mach 8 0 0 [0x01, 1, 9] []).status = .running ∧
    ∃ t, cycle defaultParams (mach 8 0 0 [0x01, 1, 9] []) = .next t ∧ t.status = .faulted := ⟨rfl, _, rfl, rfl⟩
theorem witness_HaltedOnlyByHalt : (mach 8 0 0 [0xFF] []).status = .running ∧
    ∃ t, cycle defaultParams (mach 8 0 0 [0xFF] []) = .next t ∧ t.status = .halted := ⟨rfl, _, rfl, rfl⟩
/-- TerminalStatesStay, ResetKeepsMemory and HostMovesOnlyBetweenRuns, both sides. -/
theorem witness_Terminal : (mach 8 0 0 [] []).halt.status ≠ .running ∧ ((mach 8 0 0 [] []).raise .illegalOpcode).status ≠ .running ∧
    (mach 8 0 0 [] []).status = .running := ⟨by decide, by decide, rfl⟩
/-- HostReadsStatusAtAnyTime: a host write and a reset after a HALT, a step there, and a RUNNING step that halts and one that
faults. -/
theorem witness_HostReadsStatusAtAnyTime : (∃ t, hostWrite 0 1 (mach 8 0 0 [] []).halt = some t) ∧
    (∃ t, restart (mach 8 0 0 [] []).halt = some t) ∧
    (hostStatus (mach 8 0 0 [] []).halt ≠ .running ∧ ∃ t, cycle defaultParams (mach 8 0 0 [] []).halt = .next t) ∧
    (hostStatus (mach 8 0 0 [0xFF] []) = .running ∧
      ∃ t, cycle defaultParams (mach 8 0 0 [0xFF] []) = .next t ∧ hostStatus t ≠ .running) ∧
    ∃ t, cycle defaultParams (mach 7 0 0 [] []) = .next t ∧ hostStatus t ≠ .running :=
  ⟨⟨_, rfl⟩, ⟨_, rfl⟩, ⟨by decide, _, rfl⟩, ⟨rfl, _, rfl, by decide⟩, _, rfl, by decide⟩
/-- InvariantKept: a state with listed cells, and its step. -/
theorem witness_InvariantKept : (mach 8 7 0 [0x02, 1, 3] [5]).Inv ∧ ∃ t, step (mach 8 7 0 [0x02, 1, 3] [5]) = .next t :=
  ⟨⟨by decide, by decide⟩, _, rfl⟩
theorem witness_InvariantAtReset : ∃ s, startRun (List.replicate 256 1) = some s :=
  ⟨_, if_pos List.length_replicate⟩
theorem witness_BudgetInvariantKept : WithinBudget (budget 1) (mach 8 0 0 [0x0A, 8] []) ∧
    ∃ t, cycle (budget 1) (mach 8 0 0 [0x0A, 8] []) = .next t := by
  refine ⟨fun n h => ?_, _, rfl⟩
  cases h
  decide
theorem witness_ProgramSegmentConstant : (∃ t, cycles defaultParams 2 (mach 8 7 0 [0x02, 1, 3] []) = .next t) ∧ 8 ≤ (8 : Byte).toNat :=
  ⟨⟨_, rfl⟩, by decide⟩
/-- OnlyStoreWritesMemory: a STORE to another cell. -/
theorem witness_OnlyStoreWritesMemory : (∃ t, exec (.store 1 3) (mach 8 7 0 [] []) = .next t) ∧ ∀ reg, Instr.store 1 3 ≠ .store reg 4 :=
  ⟨⟨_, rfl⟩, fun reg h => by injection h with _ h; exact absurd h (by decide)⟩
theorem witness_StoreThenLoad : Names 1 .r1 ∧ Names 2 .r2 ∧ (7 : Byte).toNat < 8 ∧ (0 : Byte).toNat < 8 ∧
    SameMemory (mach 8 0 0 [] []) (mach 8 1 0 [] []) := ⟨names_r1, names_r2, by decide, by decide, fun _ => rfl⟩
theorem witness_CanonicalMemoryDetermined : Memory.wf [(0, 1), (255, 2)] = true ∧
    ∀ a : Byte, Memory.read [(0, 1), (255, 2)] a = Memory.read [(0, 1), (255, 2)] a := ⟨by decide, fun _ => rfl⟩
/-- PcAdvancesExactly, for the largest branch sum. -/
theorem witness_PcAdvancesExactly : defaultParams.opmap.WF ∧ Fetching defaultParams (mach 253 0 0 [0x0B, 1, 255] []) ∧
    InstructionAtPc defaultParams.opmap (.beqz 1 255) (mach 253 0 0 [0x0B, 1, 255] []) ∧
    ∃ t, cycle defaultParams (mach 253 0 0 [0x0B, 1, 255] []) = .next t ∧ t.status = .running :=
  ⟨by decide, ⟨rfl, by decide⟩, by unfold InstructionAtPc; decide, _, rfl, rfl⟩
/-- StepDependsOnlyOn: two states that differ in cell 12, past the bytes at the PC. -/
theorem witness_StepDependsOnlyOn : SameButProgram (mach 8 0 0 [0x03, 1, 1, 0, 5] []) (mach 8 0 0 [0x03, 1, 1, 0, 6] []) ∧
    (mach 8 0 0 [0x03, 1, 1, 0, 5] []).mem ≠ (mach 8 0 0 [0x03, 1, 1, 0, 6] []).mem ∧
    ∀ k, k < 4 → cellAt (mach 8 0 0 [0x03, 1, 1, 0, 6] []) (8 + k) = cellAt (mach 8 0 0 [0x03, 1, 1, 0, 5] []) (8 + k) :=
  ⟨⟨rfl, rfl, rfl, ⟨rfl, rfl, rfl⟩, by decide⟩, by decide, by decide⟩
/-- StepsCountsCompleted: with and without a budget, completing and faulting. -/
theorem witness_StepsCountsCompleted : (mach 8 0 0 [0xFF] []).status = .running ∧ (budget 1).maxSteps ≠ none ∧
    defaultParams.maxSteps = none ∧ (∃ t, cycle (budget 1) (mach 8 0 0 [0xFF] []) = .next t ∧ t.status ≠ .faulted) ∧
    ∃ t, cycle (budget 1) (mach 8 0 0 [0x00] []) = .next t ∧ t.status = .faulted :=
  ⟨rfl, by decide, rfl, ⟨_, rfl, by decide⟩, _, rfl, rfl⟩
/-- BudgetEndsEveryRun: a budget just spent, and a JUMP to itself without one. -/
theorem witness_BudgetEndsEveryRun : ((budget 3).maxSteps = some 3 ∧ (counted 3 (mach 8 0 0 [] [])).status = .running ∧
      (counted 3 (mach 8 0 0 [] [])).steps ≤ 3) ∧
    (defaultParams.maxSteps = none ∧ defaultParams.opmap.WF ∧ (mach 8 0 0 [0x0A, 8] []).status = .running ∧
      (8 : Byte).toNat = (mach 8 0 0 [0x0A, 8] []).pc.toNat ∧
      InstructionAtPc defaultParams.opmap (.jump 8) (mach 8 0 0 [0x0A, 8] [])) :=
  ⟨⟨rfl, rfl, by decide⟩, rfl, by decide, rfl, by decide, by unfold InstructionAtPc; decide⟩
/-- BudgetEndsEveryRun, its last clause: a step that faults with no budget. -/
theorem witness_UnboundedFault : defaultParams.maxSteps = none ∧ (mach 7 0 0 [] []).status = .running ∧
    ∃ t, cycle defaultParams (mach 7 0 0 [] []) = .next t ∧ t.status = .faulted := ⟨rfl, rfl, _, rfl, rfl⟩
/-- RunResultDetermined: a run of one HALT. -/
theorem witness_RunResultDetermined : RunEnds defaultParams (mach 8 0 0 [0xFF] []) (mach 8 0 0 [0xFF] []).halt :=
  ⟨⟨1, rfl⟩, rfl⟩
theorem witness_ImageLoaded : (List.replicate 256 (7 : Byte)).length = 256 ∧ ([] : List Byte).length ≠ 256 :=
  ⟨List.length_replicate, by decide⟩

end Witnesses

end Sys2Proof.Tests
end

section
/-! SUPPORT. The terms of the statements over the model's operations: which bytes name a register, what taking a fault is, and
the frame of each kind of update. -/

namespace Sys2Proof.Machine

/-- A byte names a register where the register file finds it (R55). -/
theorem names_iff {reg : Byte} {d : Gpr} : Names reg d ↔ gprOf reg = some d := by
  rw [gprOf_eq_some]
  cases d <;> simp [Names, Gpr.index]

/-- A byte names no register where the register file finds none (R55). -/
theorem namesNone_iff {reg : Byte} : NamesNone reg ↔ gprOf reg = none := by
  simp only [Option.eq_none_iff_forall_ne_some, ne_eq, gprOf_eq_some]
  constructor
  · rintro ⟨h1, h2⟩ d
    cases d
    exacts [h1, h2]
  · exact fun h => ⟨h .r1, h .r2⟩

theorem sameMemory_refl (s : State) : SameMemory s s := fun _ => rfl

/-- The model's one fault operation takes the fault (R108). -/
theorem faultTaken_raise (k : FaultKind) (s : State) : FaultTaken k s (s.raise k) :=
  ⟨rfl, rfl, rfl, rfl, rfl, sameMemory_refl s, rfl⟩

theorem execFaults_of_raise {i : Instr} {s : State} {k : FaultKind} (h : exec i s = .next (s.raise k)) :
    ExecFaults i s k :=
  ⟨_, h, faultTaken_raise k s⟩

/-- Frame of a register write with a move of the PC. -/
theorem onlyGprAndPcChange_setGpr_setPc (s : State) (d : Gpr) (x : Byte) (v : PcWord) :
    OnlyGprAndPcChange d s ((s.setGpr d x).setPc v) :=
  ⟨fun g hg => by simp [State.setGpr_gpr_other s d x hg], fun a => by simp, by simp [SameControl]⟩

/-- Frame of a write of one cell with a move of the PC. -/
theorem onlyCellAndPcChange_setMem_write_setPc (s : State) (a x : Byte) (v : PcWord) :
    OnlyCellAndPcChange a s ((s.setMem (s.mem.write a x)).setPc v) :=
  ⟨rfl, rfl, fun b hb => by simp [Memory.read_write, hb], rfl, rfl, rfl⟩

/-- The post-advance PC of an operation whose slot is 3 bytes (R52). -/
theorem npc_of_width_three {op : Opcode} (h : op.width = 3) (s : State) : npc s op = s.pc + 3 := by
  simp [npc, h]

section RegisterByte
variable {reg : Byte} (s : State) (go : Gpr → State)

theorem orRaise_regOperand_some {d : Gpr} (h : gprOf reg = some d) : s.orRaise (regOperand reg) go = go d := by
  rw [regOperand_ok.mpr h, State.orRaise_ok]

theorem orRaise_regOperand_none (h : gprOf reg = none) : s.orRaise (regOperand reg) go = s.raise .illegalRegister := by
  rw [regOperand_error.mpr ⟨h, rfl⟩, State.orRaise_error]

end RegisterByte

end Sys2Proof.Machine
end

section
/-! SUPPORT. LOAD and STORE (R81, R82): an equation for each outcome, then the two rules. -/

namespace Sys2Proof.Machine

section Outcomes
variable {reg addr : Byte} {d : Gpr} (s : State)

theorem exec_load_of_lt (hd : gprOf reg = some d) (ha : addr.toNat < 8) :
    exec (.load reg addr) s = .next ((s.setGpr d (s.mem.read addr)).setPc (npc s .load)) := by
  simp [exec, execLoad, orRaise_regOperand_some s _ hd, memRead_ok.mpr ⟨ha, rfl⟩, State.advance]

theorem exec_load_of_le (hd : gprOf reg = some d) (ha : 8 ≤ addr.toNat) :
    exec (.load reg addr) s = .next (s.raise .segmentationFault) := by
  simp [exec, execLoad, orRaise_regOperand_some s _ hd, memRead_error.mpr ⟨ha, rfl⟩]

theorem exec_load_of_none (hn : gprOf reg = none) :
    exec (.load reg addr) s = .next (s.raise .illegalRegister) := by
  simp [exec, execLoad, orRaise_regOperand_none s _ hn]

theorem exec_store_of_lt (hd : gprOf reg = some d) (ha : addr.toNat < 8) :
    exec (.store reg addr) s = .next ((s.setMem (s.mem.write addr (s.gpr d))).setPc (npc s .store)) := by
  simp [exec, execStore, orRaise_regOperand_some s _ hd, memWrite_ok.mpr ⟨ha, rfl⟩, State.advance]

theorem exec_store_of_le (hd : gprOf reg = some d) (ha : 8 ≤ addr.toNat) :
    exec (.store reg addr) s = .next (s.raise .segmentationFault) := by
  simp [exec, execStore, orRaise_regOperand_some s _ hd, memWrite_error.mpr ⟨ha, rfl⟩]

theorem exec_store_of_none (hn : gprOf reg = none) :
    exec (.store reg addr) s = .next (s.raise .illegalRegister) := by
  simp [exec, execStore, orRaise_regOperand_none s _ hn]

end Outcomes

/-- Settles O7, one clause for each outcome of LOAD, then its encoding. -/
theorem loadRule : Obligations.LoadRule := by
  refine ⟨fun reg addr d s hd ha => ?completes, fun reg addr d s hd ha => ?outside, fun reg addr s hn => ?noRegister,
    fun m reg addr rest hm => ?decodes, rfl, rfl⟩
  case completes =>
    exact ⟨_, exec_load_of_lt s (names_iff.mp hd) ha, by simp, npc_of_width_three rfl s,
      onlyGprAndPcChange_setGpr_setPc s d _ _⟩
  case outside => exact execFaults_of_raise (exec_load_of_le s (names_iff.mp hd) ha)
  case noRegister => exact execFaults_of_raise (exec_load_of_none s (namesNone_iff.mp hn))
  case decodes => exact decode_byteOf hm .load (reg :: addr :: rest)

/-- Settles O8, one clause for each outcome of STORE, then its encoding. The written cell and the others are
`Memory.read_write`. -/
theorem storeRule : Obligations.StoreRule := by
  refine ⟨fun reg addr r s hr ha => ?completes, fun reg addr r s hr ha => ?outside, fun reg addr s hn => ?noRegister,
    fun m reg addr rest hm => ?decodes, rfl, rfl⟩
  case completes =>
    exact ⟨_, exec_store_of_lt s (names_iff.mp hr) ha, by simp [Memory.read_write], npc_of_width_three rfl s,
      onlyCellAndPcChange_setMem_write_setPc s addr _ _⟩
  case outside => exact execFaults_of_raise (exec_store_of_le s (names_iff.mp hr) ha)
  case noRegister => exact execFaults_of_raise (exec_store_of_none s (namesNone_iff.mp hn))
  case decodes => exact decode_byteOf hm .store (reg :: addr :: rest)

end Sys2Proof.Machine
end

section
/-! SUPPORT. ADD, SUB, MUL, DIV and REM (R83 to R88): the arithmetic unit's division, the outcomes of the shared operation
`arithRegister`, then the five rules. -/

namespace Sys2Proof.Machine

section AluDivision
variable {a b : Byte}

/-- The divisor test of DIV and REM, on bytes. -/
theorem byte_toNat_eq_zero : b.toNat = 0 ↔ b = 0 :=
  BitVec.toNat_inj (y := 0)

theorem aluDiv_of_ne_zero (hb : b ≠ 0) : aluDiv a b = .ok (a / b) := by
  rw [aluDiv, if_neg (mt byte_toNat_eq_zero.mp hb), ← BitVec.toNat_udiv, BitVec.ofNat_toNat, BitVec.setWidth_eq]

theorem aluDiv_of_eq_zero (hb : b = 0) : aluDiv a b = .error .arithmeticFault :=
  if_pos (byte_toNat_eq_zero.mpr hb)

/-- The remainder the unit computes from the quotient is the unsigned one. -/
theorem aluRem_of_ne_zero (hb : b ≠ 0) : aluRem a b = .ok (a % b) := by
  rw [aluRem, if_neg (mt byte_toNat_eq_zero.mp hb), ← Nat.mod_eq_sub, ← BitVec.toNat_umod, BitVec.ofNat_toNat,
    BitVec.setWidth_eq]

theorem aluRem_of_eq_zero (hb : b = 0) : aluRem a b = .error .arithmeticFault :=
  if_pos (byte_toNat_eq_zero.mpr hb)

end AluDivision

section RegisterArithmetic
variable {i : Instr} {op : Opcode} {f : Byte → Byte → Except FaultKind Byte} {reg1 reg2 : Byte} {d r : Gpr} {s : State}

theorem arithRegister_of_names (hd : gprOf reg1 = some d) (hr : gprOf reg2 = some r) :
    arithRegister op f reg1 reg2 s = s.orRaise (f (s.gpr d) (s.gpr r)) fun v => (s.setGpr d v).advance op := by
  rw [arithRegister, (regOperands_ok (p := (d, r))).mpr ⟨hd, hr⟩, State.orRaise_ok]

theorem arithRegister_of_none (hn : gprOf reg1 = none ∨ gprOf reg2 = none) :
    arithRegister op f reg1 reg2 s = s.raise .illegalRegister := by
  rw [arithRegister, regOperands_error.mpr ⟨hn, rfl⟩, State.orRaise_error]

/-- An instruction whose meaning is `arithRegister` writes the arithmetic unit's result to its first register. -/
theorem registerArithmetic_completes {v : Byte} {n : Nat} (hi : exec i s = .next (arithRegister op f reg1 reg2 s))
    (hw : op.width = 3) (hd : Names reg1 d) (hr : Names reg2 r) (hv : f (s.gpr d) (s.gpr r) = .ok v)
    (hn : v.toNat = n) : ∃ t, exec i s = .next t ∧ (t.gpr d).toNat = n ∧ t.pc = s.pc + 3 ∧ OnlyGprAndPcChange d s t := by
  have ht : arithRegister op f reg1 reg2 s = (s.setGpr d v).setPc (npc s op) := by
    rw [arithRegister_of_names (names_iff.mp hd) (names_iff.mp hr), hv, State.orRaise_ok, State.advance, npc_setGpr]
  exact ⟨_, hi.trans (congrArg _ ht), by simpa using hn, npc_of_width_three hw s,
    onlyGprAndPcChange_setGpr_setPc s d v _⟩

/-- It takes the fault the arithmetic unit answers. -/
theorem registerArithmetic_faults {k : FaultKind} (hi : exec i s = .next (arithRegister op f reg1 reg2 s))
    (hd : Names reg1 d) (hr : Names reg2 r) (hk : f (s.gpr d) (s.gpr r) = .error k) : ExecFaults i s k := by
  apply execFaults_of_raise
  rw [hi, arithRegister_of_names (names_iff.mp hd) (names_iff.mp hr), hk, State.orRaise_error]

/-- It takes IllegalRegister where either byte names no register, whatever the unit would answer (R55). -/
theorem registerArithmetic_illegalRegister (hi : exec i s = .next (arithRegister op f reg1 reg2 s))
    (hn : NamesNone reg1 ∨ NamesNone reg2) : ExecFaults i s .illegalRegister :=
  execFaults_of_raise (hi.trans (congrArg _ (arithRegister_of_none (hn.imp namesNone_iff.mp namesNone_iff.mp))))

end RegisterArithmetic

section Equations
variable (reg1 reg2 : Byte) (s : State)

theorem exec_add : exec (.add reg1 reg2) s = .next (arithRegister .add aluAdd reg1 reg2 s) := rfl
theorem exec_sub : exec (.sub reg1 reg2) s = .next (arithRegister .sub aluSub reg1 reg2 s) := rfl
theorem exec_mul : exec (.mul reg1 reg2) s = .next (arithRegister .mul aluMul reg1 reg2 s) := rfl
theorem exec_div : exec (.div reg1 reg2) s = .next (arithRegister .div aluDiv reg1 reg2 s) := rfl
theorem exec_rem : exec (.rem reg1 reg2) s = .next (arithRegister .rem aluRem reg1 reg2 s) := rfl

end Equations

/-- Settles O9: the unit's sum is `trunc8_add`. -/
theorem addRule : Obligations.AddRule := by
  refine ⟨fun reg1 reg2 d r s hd hr => ?completes, fun reg1 reg2 s hn => ?noRegister,
    fun m reg1 reg2 rest hm => ?decodes, rfl, rfl⟩
  case completes => exact registerArithmetic_completes (exec_add reg1 reg2 s) rfl hd hr rfl (trunc8_add _ _)
  case noRegister => exact registerArithmetic_illegalRegister (exec_add reg1 reg2 s) hn
  case decodes => exact decode_byteOf hm .add (reg1 :: reg2 :: rest)

/-- Settles O10: the unit's difference is `trunc8_sub`. -/
theorem subRule : Obligations.SubRule := by
  refine ⟨fun reg1 reg2 d r s hd hr => ?completes, fun reg1 reg2 s hn => ?noRegister,
    fun m reg1 reg2 rest hm => ?decodes, rfl, rfl⟩
  case completes => exact registerArithmetic_completes (exec_sub reg1 reg2 s) rfl hd hr rfl (trunc8_sub _ _)
  case noRegister => exact registerArithmetic_illegalRegister (exec_sub reg1 reg2 s) hn
  case decodes => exact decode_byteOf hm .sub (reg1 :: reg2 :: rest)

/-- Settles O11: the low byte of the unit's product is `trunc8_mul`. -/
theorem mulRule : Obligations.MulRule := by
  refine ⟨fun reg1 reg2 d r s hd hr => ?completes, fun reg1 reg2 s hn => ?noRegister,
    fun m reg1 reg2 rest hm => ?decodes, rfl, rfl⟩
  case completes => exact registerArithmetic_completes (exec_mul reg1 reg2 s) rfl hd hr rfl (trunc8_mul _ _)
  case noRegister => exact registerArithmetic_illegalRegister (exec_mul reg1 reg2 s) hn
  case decodes => exact decode_byteOf hm .mul (reg1 :: reg2 :: rest)

/-- Settles O12: the unit answers the quotient of bytes, or ArithmeticFault, by the divisor. -/
theorem divRule : Obligations.DivRule := by
  refine ⟨fun reg1 reg2 d r s hd hr hne => ?completes, fun reg1 reg2 d r s hd hr hz => ?zeroDivisor,
    fun reg1 reg2 s hn => ?noRegister, fun m reg1 reg2 rest hm => ?decodes, rfl, rfl⟩
  case completes =>
    exact registerArithmetic_completes (exec_div reg1 reg2 s) rfl hd hr (aluDiv_of_ne_zero hne) BitVec.toNat_udiv
  case zeroDivisor => exact registerArithmetic_faults (exec_div reg1 reg2 s) hd hr (aluDiv_of_eq_zero hz)
  case noRegister => exact registerArithmetic_illegalRegister (exec_div reg1 reg2 s) hn
  case decodes => exact decode_byteOf hm .div (reg1 :: reg2 :: rest)

/-- Settles O13: the unit answers the remainder of bytes, or ArithmeticFault, by the divisor. -/
theorem remRule : Obligations.RemRule := by
  refine ⟨fun reg1 reg2 d r s hd hr hne => ?completes, fun reg1 reg2 d r s hd hr hz => ?zeroDivisor,
    fun reg1 reg2 s hn => ?noRegister, fun m reg1 reg2 rest hm => ?decodes, rfl, rfl⟩
  case completes =>
    exact registerArithmetic_completes (exec_rem reg1 reg2 s) rfl hd hr (aluRem_of_ne_zero hne) BitVec.toNat_umod
  case zeroDivisor => exact registerArithmetic_faults (exec_rem reg1 reg2 s) hd hr (aluRem_of_eq_zero hz)
  case noRegister => exact registerArithmetic_illegalRegister (exec_rem reg1 reg2 s) hn
  case decodes => exact decode_byteOf hm .rem (reg1 :: reg2 :: rest)

end Sys2Proof.Machine
end

section
/-! SUPPORT. ADDI and SUBI (R90, R91): the outcomes of the shared operation `arithImmediate`, then the two rules. -/

namespace Sys2Proof.Machine

section ImmediateArithmetic
variable {i : Instr} {op : Opcode} {f : Byte → Byte → Except FaultKind Byte} {reg imm : Byte} {d : Gpr} {s : State}

/-- An instruction whose meaning is `arithImmediate` writes the arithmetic unit's result to its register. -/
theorem immediateArithmetic_completes {v : Byte} {n : Nat} (hi : exec i s = .next (arithImmediate op f reg imm s))
    (hw : op.width = 3) (hd : Names reg d) (hv : f (s.gpr d) imm = .ok v) (hn : v.toNat = n) :
    ∃ t, exec i s = .next t ∧ (t.gpr d).toNat = n ∧ t.pc = s.pc + 3 ∧ OnlyGprAndPcChange d s t := by
  have ht : arithImmediate op f reg imm s = (s.setGpr d v).setPc (npc s op) := by
    rw [arithImmediate, orRaise_regOperand_some s _ (names_iff.mp hd), hv, State.orRaise_ok, State.advance, npc_setGpr]
  exact ⟨_, hi.trans (congrArg _ ht), by simpa using hn, npc_of_width_three hw s,
    onlyGprAndPcChange_setGpr_setPc s d v _⟩

/-- It takes IllegalRegister where its byte names no register, whatever the immediate (R55). -/
theorem immediateArithmetic_illegalRegister (hi : exec i s = .next (arithImmediate op f reg imm s))
    (hn : NamesNone reg) : ExecFaults i s .illegalRegister :=
  execFaults_of_raise (hi.trans (congrArg _ (orRaise_regOperand_none s _ (namesNone_iff.mp hn))))

end ImmediateArithmetic

section Equations
variable (reg imm : Byte) (s : State)

theorem exec_addi : exec (.addi reg imm) s = .next (arithImmediate .addi aluAdd reg imm s) := rfl
theorem exec_subi : exec (.subi reg imm) s = .next (arithImmediate .subi aluSub reg imm s) := rfl

end Equations

/-- Settles O14: the unit's sum with the immediate is `trunc8_add`. -/
theorem addiRule : Obligations.AddiRule := by
  refine ⟨fun reg imm d s hd => ?completes, fun reg imm s hn => ?noRegister, fun m reg imm rest hm => ?decodes, rfl, rfl⟩
  case completes => exact immediateArithmetic_completes (exec_addi reg imm s) rfl hd rfl (trunc8_add _ _)
  case noRegister => exact immediateArithmetic_illegalRegister (exec_addi reg imm s) hn
  case decodes => exact decode_byteOf hm .addi (reg :: imm :: rest)

/-- Settles O15: the unit's difference from the immediate is `trunc8_sub`. -/
theorem subiRule : Obligations.SubiRule := by
  refine ⟨fun reg imm d s hd => ?completes, fun reg imm s hn => ?noRegister, fun m reg imm rest hm => ?decodes, rfl, rfl⟩
  case completes => exact immediateArithmetic_completes (exec_subi reg imm s) rfl hd rfl (trunc8_sub _ _)
  case noRegister => exact immediateArithmetic_illegalRegister (exec_subi reg imm s) hn
  case decodes => exact decode_byteOf hm .subi (reg :: imm :: rest)

end Sys2Proof.Machine
end

section
/-! SUPPORT. BEQZ and BEQ (R93 to R95): the outcomes of the shared operation `branchIf`, the operand-fetch bound (R39) that a
BEQ near the end of memory runs into, then the two rules. -/

namespace Sys2Proof.Machine

/-- Frame of a move of the PC. -/
theorem onlyPcChanges_setPc (s : State) (v : PcWord) : OnlyPcChanges s (s.setPc v) :=
  ⟨rfl, rfl, fun _ => rfl, rfl, rfl, rfl⟩

theorem isZero_iff {v : Byte} : isZero v = true ↔ v = 0 := decide_eq_true_iff
theorem isEqual_iff {v constant : Byte} : isEqual v constant = true ↔ v = constant := decide_eq_true_iff

section Branch
variable {i : Instr} {op : Opcode} {cond : Byte → Bool} {reg offset : Byte} {r : Gpr} {s : State}

theorem branchIf_of_some (hr : gprOf reg = some r) :
    branchIf op cond reg offset s = s.setPc (if cond (s.gpr r) then branchTarget s op offset else npc s op) := by
  rw [branchIf, orRaise_regOperand_some s _ hr, State.advance, apply_ite s.setPc]

/-- An instruction whose meaning is `branchIf` moves the PC and nothing else: to the branch target where its condition `P` on
the register holds, and past its slot where it does not. A target from a slot within memory is an exact sum (R95). -/
theorem branch_completes {P : Prop} (hi : exec i s = .next (branchIf op cond reg offset s)) (hr : Names reg r)
    (hP : cond (s.gpr r) = true ↔ P) :
    ∃ t, exec i s = .next t ∧ OnlyPcChanges s t ∧ (P → t.pc = branchTarget s op offset) ∧ (¬P → t.pc = npc s op) ∧
      (P → s.pc.toNat + op.width ≤ 256 → t.pc.toNat = s.pc.toNat + op.width + offset.toNat) := by
  have ht := hi.trans (congrArg _ (branchIf_of_some (names_iff.mp hr)))
  have taken (h : P) : (if cond (s.gpr r) then branchTarget s op offset else npc s op) = branchTarget s op offset :=
    if_pos (hP.mpr h)
  exact ⟨_, ht, onlyPcChanges_setPc s _, taken, fun h => if_neg (mt hP.mp h),
    fun h hslot => (congrArg BitVec.toNat (taken h)).trans (branchTarget_toNat hslot)⟩

/-- It takes IllegalRegister where its byte names no register, whether or not it would branch (R55). -/
theorem branch_illegalRegister (hi : exec i s = .next (branchIf op cond reg offset s)) (hn : NamesNone reg) :
    ExecFaults i s .illegalRegister :=
  execFaults_of_raise (hi.trans (congrArg _ (orRaise_regOperand_none s _ (namesNone_iff.mp hn))))

end Branch

section OperandBound
variable {m : OpMap} {s : State}

/-- At a PC within memory the bytes a fetch sees begin with the cell at the PC. -/
theorem window_eq_cons (h : s.pc.toNat ≤ 255) : window s = cellAt s s.pc.toNat :: bytesAt s.mem (s.pc.toNat + 1) 3 :=
  bytesAt_succ (Nat.lt_succ_of_le h)

theorem fetch_of_decode_error {e : DecodeError} (hf : fetchable s.pc = true) (hd : decode m (window s) = .error e) :
    fetch m s = .error (faultOfDecode e) := by
  simp [fetch, hf, hd]

/-- An instruction whose needed bytes do not all lie in memory is not fetched (R39). -/
theorem fetch_of_need_gt {op : Opcode} (hm : m.WF) (hlow : 8 ≤ s.pc.toNat) (hhigh : s.pc.toNat ≤ 255)
    (hop : cellAt s s.pc.toNat = m.byteOf op) (hneed : 256 < s.pc.toNat + op.need) :
    fetch m s = .error .fetchOutOfBounds := by
  have hshort : (bytesAt s.mem (s.pc.toNat + 1) 3).length + 1 < op.need := by
    rw [length_bytesAt, Config.memSize]
    omega
  have hd : decode m (window s) = .error .operandsMissing := by
    rw [window_eq_cons hhigh, hop, decode_byteOf hm, decodeOperands_eq_error.mpr hshort]
  exact fetch_of_decode_error (fetchable_iff.mpr ⟨hlow, hhigh⟩) hd

theorem cycleFaults_of_fetch_error {p : Params} {k : FaultKind} (h : Fetching p s) (hf : fetch p.opmap s = .error k) :
    CycleFaults p s k := by
  obtain ⟨hrunning, hbudget⟩ := h
  exact ⟨_, cycle_of_fetch_error hrunning hbudget hf, faultTaken_raise k s⟩

end OperandBound

section Equations
variable (reg constant offset : Byte) (s : State)

theorem exec_beqz : exec (.beqz reg offset) s = .next (branchIf .beqz isZero reg offset s) := rfl
theorem exec_beq :
    exec (.beq reg constant offset) s = .next (branchIf .beq (fun v => isEqual v constant) reg offset s) := rfl

end Equations

/-- Settles O17: the two outcomes of `branchIf` with BEQZ's comparator, then its encoding. -/
theorem beqzRule : Obligations.BeqzRule := by
  refine ⟨fun reg offset r s hr => ?completes, fun reg offset s hn => ?noRegister,
    fun m reg offset rest hm => ?decodes, rfl, rfl⟩
  case completes => exact branch_completes (exec_beqz reg offset s) hr isZero_iff
  case noRegister => exact branch_illegalRegister (exec_beqz reg offset s) hn
  case decodes => exact decode_byteOf hm .beqz (reg :: offset :: rest)

/-- Settles O18: the two outcomes of `branchIf` with BEQ's comparator, its encoding, and the fetch of a BEQ whose fourth byte
lies past the end of memory. -/
theorem beqRule : Obligations.BeqRule := by
  refine ⟨fun reg constant offset r s hr => ?completes, fun reg constant offset s hn => ?noRegister,
    fun m reg constant offset rest hm => ?decodes, fun p s hm hfetch hlow hhigh hop => ?outside, rfl, rfl⟩
  case completes => exact branch_completes (exec_beq reg constant offset s) hr isEqual_iff
  case noRegister => exact branch_illegalRegister (exec_beq reg constant offset s) hn
  case decodes => exact decode_byteOf hm .beq (reg :: constant :: offset :: rest)
  case outside =>
    have hneed : Opcode.beq.need = 4 := rfl
    exact cycleFaults_of_fetch_error hfetch (fetch_of_need_gt (op := .beq) hm (by omega) hhigh hop (by omega))

end Sys2Proof.Machine
end

section
/-! SUPPORT. Why an instruction faults, said once (R101, R103, R105): the faults the arithmetic unit answers, the reasons as a
relation, and its inversion lemma for `exec`; the fetch of a PC outside the fetchable range; then the two rules of R101 and
R103, each of them the rule of its instructions in one direction and the inversion lemma in the other. -/

namespace Sys2Proof.Machine

section AluFaults
variable {a b : Byte} {k : FaultKind}

theorem aluDiv_error : aluDiv a b = .error k ↔ b = 0 ∧ k = .arithmeticFault := by
  by_cases hb : b = 0
  · rw [aluDiv_of_eq_zero hb, Except.error.injEq, eq_comm, and_iff_right hb]
  · simp only [aluDiv_of_ne_zero hb, reduceCtorEq, hb, false_and]

theorem aluRem_error : aluRem a b = .error k ↔ b = 0 ∧ k = .arithmeticFault := by
  by_cases hb : b = 0
  · rw [aluRem_of_eq_zero hb, Except.error.injEq, eq_comm, and_iff_right hb]
  · simp only [aluRem_of_ne_zero hb, reduceCtorEq, hb, false_and]

end AluFaults

/-- Why executing an instruction at a state takes a fault: the 'raised when' column of R100, for the faults that the
instructions themselves raise. -/
inductive ExecFaultReason : Instr → State → FaultKind → Prop where
  | invalidRegister {i : Instr} {s : State} {b : Byte} (hmem : b ∈ i.registerBytes) (hn : NamesNone b) :
      ExecFaultReason i s .illegalRegister
  | loadOutside {reg addr : Byte} {d : Gpr} {s : State} (hd : Names reg d) (ha : 8 ≤ addr.toNat) :
      ExecFaultReason (.load reg addr) s .segmentationFault
  | storeOutside {reg addr : Byte} {r : Gpr} {s : State} (hr : Names reg r) (ha : 8 ≤ addr.toNat) :
      ExecFaultReason (.store reg addr) s .segmentationFault
  | divByZero {reg1 reg2 : Byte} {d r : Gpr} {s : State} (hd : Names reg1 d) (hr : Names reg2 r) (hz : s.gpr r = 0) :
      ExecFaultReason (.div reg1 reg2) s .arithmeticFault
  | remByZero {reg1 reg2 : Byte} {d r : Gpr} {s : State} (hd : Names reg1 d) (hr : Names reg2 r) (hz : s.gpr r = 0) :
      ExecFaultReason (.rem reg1 reg2) s .arithmeticFault

/-- From `s`, the instruction `i` has taken a fault for one of the reasons, and done nothing else. -/
def FaultedForReason (i : Instr) (s t : State) : Prop := ∃ k, t = s.raise k ∧ ExecFaultReason i s k

section SharedOperations
variable {i : Instr} {op : Opcode} {f : Byte → Byte → Except FaultKind Byte} {cond : Byte → Bool}
  {reg reg1 reg2 imm offset : Byte} {s t : State}

theorem faultedForReason_of_gprOf_none (hmem : reg ∈ i.registerBytes) (hn : gprOf reg = none) :
    FaultedForReason i s (s.raise .illegalRegister) :=
  ⟨_, rfl, .invalidRegister hmem (namesNone_iff.mpr hn)⟩

/-- A register-register operation faults for a register byte, or where the arithmetic unit does. -/
theorem arithRegister_faulted (h : arithRegister op f reg1 reg2 s = t) (hs : s.status = .running)
    (ht : t.status = .faulted) (hi : i.registerBytes = [reg1, reg2])
    (hf : ∀ d r k, Names reg1 d → Names reg2 r → f (s.gpr d) (s.gpr r) = .error k → ExecFaultReason i s k) :
    FaultedForReason i s t := by
  obtain ⟨hn | hn, rfl⟩ | ⟨d, r, hd, hr, ⟨k, hk, rfl⟩ | ⟨v, -, rfl⟩⟩ := arithRegister_cases h
  · exact faultedForReason_of_gprOf_none (by simp [hi]) hn
  · exact faultedForReason_of_gprOf_none (by simp [hi]) hn
  · exact ⟨k, rfl, hf d r k (names_iff.mpr hd) (names_iff.mpr hr) hk⟩
  · simp [hs] at ht

/-- A register-immediate operation whose arithmetic never fails faults for its register byte only. -/
theorem arithImmediate_faulted (h : arithImmediate op f reg imm s = t) (hs : s.status = .running)
    (ht : t.status = .faulted) (hi : i.registerBytes = [reg]) (hf : ∀ a b k, f a b ≠ .error k) :
    FaultedForReason i s t := by
  obtain ⟨hn, rfl⟩ | ⟨d, -, ⟨k, hk, -⟩ | ⟨v, -, rfl⟩⟩ := arithImmediate_cases h
  · exact faultedForReason_of_gprOf_none (by simp [hi]) hn
  · exact absurd hk (hf _ _ k)
  · simp [hs] at ht

/-- A branch faults for its register byte only. -/
theorem branchIf_faulted (h : branchIf op cond reg offset s = t) (hs : s.status = .running)
    (ht : t.status = .faulted) (hi : i.registerBytes = [reg]) : FaultedForReason i s t := by
  obtain ⟨hn, rfl⟩ | ⟨r, -, rfl⟩ := branchIf_cases h
  · exact faultedForReason_of_gprOf_none (by simp [hi]) hn
  · simp [hs] at ht

end SharedOperations

/-- An instruction that faults at a RUNNING state does so for one of the reasons. -/
theorem exec_faulted {i : Instr} {s t : State} (hs : s.status = .running) (h : exec i s = .next t)
    (ht : t.status = .faulted) : FaultedForReason i s t := by
  cases i with
  | halt => cases h; cases ht
  | jump target => cases h; simp [hs] at ht
  | load reg addr =>
    obtain ⟨hn, rfl⟩ | ⟨d, hd, ⟨ha, rfl⟩ | ⟨-, rfl⟩⟩ := execLoad_cases h
    · exact faultedForReason_of_gprOf_none (List.mem_singleton_self reg) hn
    · exact ⟨_, rfl, .loadOutside (names_iff.mpr hd) ha⟩
    · simp [hs] at ht
  | store reg addr =>
    obtain ⟨hn, rfl⟩ | ⟨r, hr, ⟨ha, rfl⟩ | ⟨-, rfl⟩⟩ := execStore_cases h
    · exact faultedForReason_of_gprOf_none (List.mem_singleton_self reg) hn
    · exact ⟨_, rfl, .storeOutside (names_iff.mpr hr) ha⟩
    · simp [hs] at ht
  | add | sub | mul =>
    exact arithRegister_faulted (Host.Outcome.next.inj h) hs ht rfl fun _ _ _ _ _ => nofun
  | div reg1 reg2 =>
    refine arithRegister_faulted (Host.Outcome.next.inj h) hs ht rfl fun d r k hd hr hk => ?_
    obtain ⟨hz, rfl⟩ := aluDiv_error.mp hk
    exact .divByZero hd hr hz
  | rem reg1 reg2 =>
    refine arithRegister_faulted (Host.Outcome.next.inj h) hs ht rfl fun d r k hd hr hk => ?_
    obtain ⟨hz, rfl⟩ := aluRem_error.mp hk
    exact .remByZero hd hr hz
  | addi | subi => exact arithImmediate_faulted (Host.Outcome.next.inj h) hs ht rfl fun _ _ _ => nofun
  | beqz | beq => exact branchIf_faulted (Host.Outcome.next.inj h) hs ht rfl

/-- The fault an instruction leaves in CAUSE has its reason. -/
theorem execFaultReason_of_cause {i : Instr} {s t : State} {k : FaultKind} (hs : s.status = .running)
    (h : exec i s = .next t) (ht : t.status = .faulted) (hk : t.cause = some k) : ExecFaultReason i s k := by
  obtain ⟨k', rfl, hreason⟩ := exec_faulted hs h ht
  obtain rfl : k' = k := Option.some.inj hk
  exact hreason

/-- A fetch raises IllegalOpcode or FetchOutOfBounds (R102, R104), and no other fault. -/
theorem fetch_error_kind {m : OpMap} {s : State} {k : FaultKind} (h : fetch m s = .error k) :
    k = .illegalOpcode ∨ k = .fetchOutOfBounds := by
  obtain ⟨-, rfl⟩ | ⟨-, e, -, rfl⟩ := fetch_error h
  · exact .inr rfl
  · cases e with
    | illegalOpcode => exact .inl rfl
    | operandsMissing => exact .inr rfl

/-- A PC outside 8 to 255 does not pass the fetch guard (R38). -/
theorem cycleFaults_of_pc_outside {p : Params} {s : State} (h : Fetching p s) (hpc : s.pc.toNat < 8 ∨ 255 < s.pc.toNat) :
    CycleFaults p s .fetchOutOfBounds := by
  have hguard : ¬fetchable s.pc = true := by rw [fetchable_iff]; omega
  exact cycleFaults_of_fetch_error h (if_neg hguard)

/-- Settles O28: LOAD's and STORE's rules outside the Data Segment one way, `execFaultReason_of_cause` the other, and the two
faults a fetch can raise. -/
theorem segmentationFaultExactly : Obligations.SegmentationFaultExactly := by
  refine ⟨fun reg addr d s hd ha => ?taken, fun i s t hs h ht hk => ?onlyThen, fun m s h => ?notByFetch,
    fun p s => cycleFaults_of_pc_outside⟩
  case taken =>
    have hd := names_iff.mp hd
    exact ⟨execFaults_of_raise (exec_load_of_le s hd ha), execFaults_of_raise (exec_store_of_le s hd ha)⟩
  case onlyThen =>
    cases execFaultReason_of_cause hs h ht hk with
    | loadOutside hd ha => exact ⟨_, _, _, hd, ha, .inl rfl⟩
    | storeOutside hr ha => exact ⟨_, _, _, hr, ha, .inr rfl⟩
  case notByFetch => exact absurd (fetch_error_kind h) (by decide)

/-- Settles O29: the rules of DIV and REM for a zero divisor one way, `execFaultReason_of_cause` the other. -/
theorem arithmeticFaultExactly : Obligations.ArithmeticFaultExactly := by
  refine ⟨fun reg1 reg2 d r s hd hr hz => ⟨?div, ?rem⟩, fun i s t hs h ht hk => ?onlyThen⟩
  case div => exact registerArithmetic_faults (exec_div reg1 reg2 s) hd hr (aluDiv_of_eq_zero hz)
  case rem => exact registerArithmetic_faults (exec_rem reg1 reg2 s) hd hr (aluRem_of_eq_zero hz)
  case onlyThen =>
    cases execFaultReason_of_cause hs h ht hk with
    | divByZero hd hr hz => exact ⟨_, _, _, _, hd, hr, hz, .inl rfl⟩
    | remByZero hd hr hz => exact ⟨_, _, _, _, hd, hr, hz, .inr rfl⟩

end Sys2Proof.Machine
end

section
/-! SUPPORT. The encoding (R50 to R58): exactly which bytes decode to an instruction, said once, and from it the statements about
decoding and encoding. -/

namespace Sys2Proof

/-- Every operation reads its opcode byte, and none reads more than four bytes (R53). -/
theorem Opcode.need_pos (op : Opcode) : 0 < op.need := by cases op <;> decide

theorem Opcode.need_le_four (op : Opcode) : op.need ≤ 4 := by cases op <;> decide

/-- The slot of an instruction holds all of its needed bytes (R53). -/
theorem need_le_length_encode (m : OpMap) (i : Instr) : i.opcode.need ≤ (encode m i).length := by
  cases i <;> simp [encode, Instr.opcode, Opcode.need]

/-- Decoding from an opcode byte on, where the map recognises it. -/
theorem decode_cons_of_recognise {m : OpMap} {b : Byte} {op : Opcode} (hr : m.recognise b = some op) (rest : List Byte) :
    decode m (b :: rest) = decodeOperands op rest := by
  simp [decode, hr]

/-- The needed bytes of an encoding decode to its instruction, whatever bytes follow them. -/
theorem decode_take_need_encode {m : OpMap} {i : Instr} (hr : m.recognise (m.byteOf i.opcode) = some i.opcode)
    (rest : List Byte) : decode m ((encode m i).take i.opcode.need ++ rest) = .ok i := by
  cases i <;> exact decode_cons_of_recognise hr _

/-- The operand bytes an instruction was decoded from are the needed ones of its encoding. -/
theorem take_need_of_decodeOperands (m : OpMap) {op : Opcode} {bs : List Byte} {i : Instr}
    (h : decodeOperands op bs = .ok i) :
    (m.byteOf op :: bs).take i.opcode.need = (encode m i).take i.opcode.need := by
  unfold decodeOperands at h
  split at h <;> cases h <;> rfl

/-- Which bytes decode to an instruction: those that begin with the needed bytes of its encoding, where the map's first operation
with its opcode byte is its own (R51, R53, R54). -/
theorem decode_eq_ok_iff {m : OpMap} {bs : List Byte} {i : Instr} :
    decode m bs = .ok i ↔
      m.recognise (m.byteOf i.opcode) = some i.opcode ∧ bs.take i.opcode.need = (encode m i).take i.opcode.need := by
  constructor
  · intro h
    obtain ⟨op, rest, rfl, hr, ho⟩ := decode_ok h
    obtain rfl := opcode_of_decodeOperands ho
    exact ⟨hr, take_need_of_decodeOperands m ho⟩
  · rintro ⟨hr, hb⟩
    rw [← List.take_append_drop i.opcode.need bs, hb]
    exact decode_take_need_encode hr _

/-- Settles O1: the encoding begins with its own needed bytes, and a well-formed map recognises its opcode byte. -/
theorem decodeEncodeAgree : Obligations.DecodeEncodeAgree := fun m i _ hm =>
  decode_eq_ok_iff.mpr ⟨hm.recognise_byteOf i.opcode, List.take_append_of_le_length (need_le_length_encode m i)⟩

/-- Settles O2: the needed bytes are `decode_eq_ok_iff`, and since the encoding has them all, so have the bytes decoded. -/
theorem encodeDecodeAgree : Obligations.EncodeDecodeAgree := by
  intro m bs i h
  have hb := (decode_eq_ok_iff.mp h).2
  have hlen := congrArg List.length hb
  rw [List.length_take, List.length_take_of_le (need_le_length_encode m i)] at hlen
  exact ⟨by omega, hb⟩

/-- Settles O3: `decode_eq_ok_iff` names the needed bytes only. -/
theorem unusedBytesIgnored : Obligations.UnusedBytesIgnored := by
  intro m bs bs' i h hb'
  obtain ⟨hr, hb⟩ := decode_eq_ok_iff.mp h
  exact decode_eq_ok_iff.mpr ⟨hr, hb'.trans hb⟩

/-- Settles O4: past a recognised opcode byte the only rejection is for missing operand bytes. -/
theorem illegalOpcodeRejected : Obligations.IllegalOpcodeRejected := by
  intro m b rest
  rw [← OpMap.recognise_eq_none]
  cases hr : m.recognise b with
  | none => simp [decode, hr]
  | some op =>
    rw [decode_cons_of_recognise hr]
    have hne : decodeOperands op rest ≠ .error .illegalOpcode := fun h => by cases decodeOperands_error h
    simpa using hne

/-- Settles O5, by running the decoder on each word. -/
theorem decodesWrittenWords : Obligations.DecodesWrittenWords := by
  unfold Obligations.DecodesWrittenWords
  decide

end Sys2Proof
end

section
/-! SUPPORT. Memory as data (R30): a canonical memory is determined by its cells, and what a memory made from bytes reads as. -/

namespace Sys2Proof.Machine

/-- An address of a cell as a byte (R30). -/
theorem toNat_ofNat_of_lt_memSize {a : Nat} (h : a < Config.memSize) : (BitVec.ofNat 8 a).toNat = a :=
  Nat.mod_eq_of_lt h

section Canonical
variable {m m' : Memory} {lo k : Nat} {v : Byte} {a : Byte}

/-- The cell a first pair is for reads as its value. -/
theorem Memory.read_cons_self (h : k = a.toNat) : Memory.read ((k, v) :: m) a = v := if_pos h

/-- Every other cell reads as the rest of the list has it. -/
theorem Memory.read_cons_of_ne (h : k ≠ a.toNat) : Memory.read ((k, v) :: m) a = m.read a := if_neg h

/-- Below the bound of its canonical form a memory lists no cell. -/
theorem Memory.read_of_lt_of_wfFrom (h : Memory.wfFrom lo m = true) (ha : a.toNat < lo) : m.read a = Memory.unlisted := by
  induction m generalizing lo with
  | nil => rfl
  | cons c m ih =>
    obtain ⟨k, v⟩ := c
    obtain ⟨hlo, -, -, hm⟩ := Memory.wfFrom_cons.mp h
    rw [Memory.read_cons_of_ne (by omega)]
    exact ih hm (by omega)

/-- A canonical memory reads differently, at its first cell, from every one that begins above that cell. -/
theorem Memory.exists_read_cons_ne (h : Memory.wfFrom lo ((k, v) :: m) = true) (h' : Memory.wfFrom (k + 1) m' = true) :
    ∃ a : Byte, Memory.read ((k, v) :: m) a ≠ m'.read a := by
  obtain ⟨-, hk, hv, -⟩ := Memory.wfFrom_cons.mp h
  have hnat := toNat_ofNat_of_lt_memSize hk
  refine ⟨BitVec.ofNat 8 k, ?_⟩
  rwa [Memory.read_cons_self hnat.symm, Memory.read_of_lt_of_wfFrom h' (by omega)]

/-- Canonical memories that read alike have the same first cell, so the same first pair, and the rest of them read alike. -/
theorem Memory.eq_of_read_eq (h : Memory.wfFrom lo m = true) (h' : Memory.wfFrom lo m' = true)
    (hread : ∀ a : Byte, m.read a = m'.read a) : m = m' := by
  induction m generalizing lo m' with
  | nil =>
    cases m' with
    | nil => rfl
    | cons c' m' =>
      obtain ⟨a, ha⟩ := Memory.exists_read_cons_ne (m' := []) h' rfl
      exact absurd (hread a).symm ha
  | cons c m ih =>
    obtain ⟨k, v⟩ := c
    obtain ⟨-, hk, hv, hm⟩ := Memory.wfFrom_cons.mp h
    cases m' with
    | nil =>
      obtain ⟨a, ha⟩ := Memory.exists_read_cons_ne (m' := []) h rfl
      exact absurd (hread a) ha
    | cons c' m' =>
      obtain ⟨k', v'⟩ := c'
      obtain ⟨-, hk', hv', hm'⟩ := Memory.wfFrom_cons.mp h'
      obtain hlt | rfl | hlt := Nat.lt_trichotomy k k'
      · obtain ⟨a, ha⟩ := Memory.exists_read_cons_ne h (Memory.wfFrom_cons.mpr ⟨hlt, hk', hv', hm'⟩)
        exact absurd (hread a) ha
      · have hnat := (toNat_ofNat_of_lt_memSize hk).symm
        have hv : v = v' := by simpa only [Memory.read_cons_self hnat] using hread (BitVec.ofNat 8 k)
        have hrest (a : Byte) : Memory.read m a = Memory.read m' a := by
          by_cases ha : k = a.toNat
          · rw [Memory.read_of_lt_of_wfFrom hm (by omega), Memory.read_of_lt_of_wfFrom hm' (by omega)]
          · simpa only [Memory.read_cons_of_ne ha] using hread a
        rw [hv, ih hm hm' hrest]
      · obtain ⟨a, ha⟩ := Memory.exists_read_cons_ne h' (Memory.wfFrom_cons.mpr ⟨hlt, hk, hv, hm⟩)
        exact absurd (hread a).symm ha

end Canonical

/-- Settles O40, by induction on the two lists of cells. -/
theorem canonicalMemoryDetermined : Obligations.CanonicalMemoryDetermined := fun _ _ => Memory.eq_of_read_eq

section Bytes
variable {m : Memory} {bs : List Byte} {a : Nat}

/-- Writing bytes upwards from an address leaves the cells below it. -/
theorem Memory.read_writeBytes_of_lt {c : Byte} (h : c.toNat < a) : (m.writeBytes a bs).read c = m.read c := by
  induction bs generalizing m a with
  | nil => rfl
  | cons x bs ih =>
    unfold Memory.writeBytes
    split
    · next ha =>
      have hne : c ≠ BitVec.ofNat 8 a := by
        rintro rfl
        rw [toNat_ofNat_of_lt_memSize ha] at h
        exact Nat.lt_irrefl a h
      rw [ih (by omega), Memory.read_write, if_neg hne]
    · rfl

/-- Bytes written within memory are the bytes a fetch sees there. -/
theorem bytesAt_writeBytes (h : a + bs.length ≤ Config.memSize) : bytesAt (m.writeBytes a bs) a bs.length = bs := by
  induction bs generalizing m a with
  | nil => rfl
  | cons x bs ih =>
    rw [List.length_cons] at h ⊢
    have ha : a < Config.memSize := by omega
    have hx : (BitVec.ofNat 8 a).toNat < a + 1 := by
      rw [toNat_ofNat_of_lt_memSize ha]
      exact Nat.lt_succ_self a
    rw [bytesAt_succ ha, Memory.writeBytes, if_pos ha, ih (by omega), Memory.read_writeBytes_of_lt hx,
      Memory.read_write, if_pos rfl]

theorem Memory.read_ofBytes_cons_of_ne {x c : Byte} (h : a ≠ c.toNat) :
    (Memory.ofBytes a (x :: bs)).read c = (Memory.ofBytes (a + 1) bs).read c := by
  rw [Memory.ofBytes]
  split
  · rfl
  · exact Memory.read_cons_of_ne h

/-- A memory made from bytes lists no cell below their first address. -/
theorem Memory.read_ofBytes_of_lt {c : Byte} (h : c.toNat < a) : (Memory.ofBytes a bs).read c = Memory.unlisted := by
  induction bs generalizing a with
  | nil => rfl
  | cons x bs ih => rw [Memory.read_ofBytes_cons_of_ne (by omega), ih (by omega)]

/-- It reads as the bytes from there up. -/
theorem Memory.read_ofBytes {c : Byte} (h : a ≤ c.toNat) :
    (Memory.ofBytes a bs).read c = (bs[c.toNat - a]?).getD Memory.unlisted := by
  induction bs generalizing a with
  | nil => rfl
  | cons x bs ih =>
    obtain rfl | hlt := Nat.eq_or_lt_of_le h
    · rw [Nat.sub_self, List.getElem?_cons_zero, Option.getD_some, Memory.ofBytes]
      split
      · next hx => rw [Memory.read_ofBytes_of_lt (Nat.lt_succ_self _), hx]
      · exact Memory.read_cons_self rfl
    · have hsucc : c.toNat - a = c.toNat - (a + 1) + 1 := by omega
      rw [Memory.read_ofBytes_cons_of_ne (by omega), ih hlt, hsucc, List.getElem?_cons_succ]

end Bytes

/-- Settles O47: the cells of a started run are those of `Memory.read_ofBytes`, its registers those of reset. -/
theorem imageLoaded : Obligations.ImageLoaded := by
  refine ⟨fun image hlen => ⟨_, if_pos hlen, fun a => ?_, rfl, rfl, rfl, rfl, rfl, rfl⟩, fun image hlen => if_neg hlen⟩
  have ha : a.toNat < image.length := hlen ▸ a.isLt
  rw [Memory.read_ofBytes (Nat.zero_le _), Nat.sub_zero, List.getElem?_eq_getElem ha, Option.getD_some]

end Sys2Proof.Machine
end

section
/-! SUPPORT. What instructions do to memory and to the step counter, read off `exec_cases`; the register bytes of an ill-formed
instruction (R55); then the statements about single instructions. -/

namespace Sys2Proof.Machine

/-- Settles O6: HALT's meaning is `State.halt`, which changes STATUS only. -/
theorem haltResult : Obligations.HaltResult := fun s =>
  ⟨s.halt, rfl, s.halt_status, s.halt_pc, s.halt_r1, s.halt_r2, sameMemory_refl s, s.halt_cause, s.halt_steps⟩

/-- Settles O16: JUMP's meaning is a move of the PC to the widened target. -/
theorem jumpResult : Obligations.JumpResult := fun target s =>
  ⟨s.setPc (zext9 target), rfl, zext9_toNat target, onlyPcChanges_setPc s _⟩

section Frame
variable {i : Instr} {s t : State}

/-- A cell that an instruction changes is a Data Segment cell, and the instruction a STORE to it (R33, R36). -/
theorem exec_read {b : Byte} (h : exec i s = .next t) :
    t.mem.read b = s.mem.read b ∨ b.toNat < 8 ∧ ∃ reg, i = .store reg b := by
  obtain ⟨k, rfl⟩ | ⟨-, rfl⟩ | ⟨v, rfl⟩ | ⟨d, x, v, rfl⟩ | ⟨reg, a, r, rfl, -, ha, rfl⟩ := exec_cases h
  · exact .inl rfl
  · exact .inl rfl
  · exact .inl rfl
  · exact .inl (by simp)
  · by_cases hb : b = a
    · exact .inr ⟨hb ▸ ha, reg, by rw [hb]⟩
    · exact .inl (by simp [Memory.read_write, hb])

/-- No instruction touches the step counter; the step counts (R18). -/
theorem exec_steps (h : exec i s = .next t) : t.steps = s.steps := by
  obtain ⟨k, rfl⟩ | ⟨-, rfl⟩ | ⟨v, rfl⟩ | ⟨d, x, v, rfl⟩ | ⟨reg, a, r, -, -, -, rfl⟩ := exec_cases h <;> simp

end Frame

/-- Settles O38, by `exec_read`. -/
theorem onlyStoreWritesMemory : Obligations.OnlyStoreWritesMemory := by
  intro i s t b h hne
  obtain hread | ⟨-, reg, hi⟩ := exec_read (b := b) h
  · exact hread
  · exact absurd hi (hne reg)

/-- Settles O39: STORE and LOAD complete, and the cell read is `Memory.read_write`. -/
theorem storeThenLoad : Obligations.StoreThenLoad := by
  intro reg reg' a b r d s hr hd ha hb
  refine ⟨_, exec_store_of_lt s (names_iff.mp hr) ha, fun u hu => ⟨_, exec_load_of_lt u (names_iff.mp hd) hb, ?_⟩⟩
  have hcell : u.mem.read b = if b = a then s.gpr r else s.mem.read b := by
    simpa [Memory.read_write] using hu b
  simpa using hcell

/-- A register operand byte is valid where it is 1 or 2 (R13, R55). -/
theorem validReg_iff {b : Byte} : validReg b ↔ b = 1 ∨ b = 2 := by
  rw [validReg, Option.isSome_iff_exists]
  constructor
  · rintro ⟨d, hd⟩
    exact (names_iff.mpr hd).imp And.left And.left
  · rintro (rfl | rfl)
    exacts [⟨.r1, rfl⟩, ⟨.r2, rfl⟩]

theorem namesNone_iff_not_validReg {b : Byte} : NamesNone b ↔ ¬validReg b := by
  rw [validReg_iff, not_or, NamesNone]

/-- An instruction with a register byte that names no register takes IllegalRegister (R55, R105). -/
theorem exec_illegalRegister {i : Instr} {b : Byte} (hb : b ∈ i.registerBytes) (hn : NamesNone b) (s : State) :
    ExecFaults i s .illegalRegister := by
  have one {reg : Byte} (h : b ∈ [reg]) : NamesNone reg := List.mem_singleton.mp h ▸ hn
  have two {reg1 reg2 : Byte} (h : b ∈ [reg1, reg2]) : NamesNone reg1 ∨ NamesNone reg2 := by
    obtain rfl | rfl := List.mem_pair.mp h
    exacts [.inl hn, .inr hn]
  cases i with
  | halt | jump => cases hb
  | load => exact execFaults_of_raise (exec_load_of_none s (namesNone_iff.mp (one hb)))
  | store => exact execFaults_of_raise (exec_store_of_none s (namesNone_iff.mp (one hb)))
  | add | sub | mul | div | rem => exact registerArithmetic_illegalRegister rfl (two hb)
  | addi | subi => exact immediateArithmetic_illegalRegister rfl (one hb)
  | beqz | beq => exact branch_illegalRegister rfl (one hb)

/-- Settles O19: `exec_illegalRegister` one way, and the only reason for IllegalRegister the other. -/
theorem invalidRegisterFaults : Obligations.InvalidRegisterFaults := by
  refine ⟨fun i => forall₂_congr fun b _ => validReg_iff, fun i s hi => ?illFormed, fun i s t hi hs h ht hk => ?wellFormed⟩
  case illFormed =>
    obtain ⟨b, hb, hn⟩ : ∃ b ∈ i.registerBytes, ¬validReg b := by simpa only [not_forall, exists_prop] using hi
    exact exec_illegalRegister hb (namesNone_iff_not_validReg.mpr hn) s
  case wellFormed =>
    cases execFaultReason_of_cause hs h ht hk with
    | invalidRegister hb hn => exact namesNone_iff_not_validReg.mp hn (hi _ hb)

end Sys2Proof.Machine
end

section
/-! SUPPORT. The fetch (R71 steps 1 to 4): the instruction whose needed bytes stand at the PC is the one fetched, and each way a
fetch fails; then the statements about a step that fetches. -/

namespace Sys2Proof.Machine

section Fetch
variable {m : OpMap} {s : State} {i : Instr}

theorem fetch_of_decode_ok (hf : fetchable s.pc = true) (hd : decode m (window s) = .ok i) : fetch m s = .ok i := by
  simp [fetch, hf, hd]

/-- The instruction whose needed bytes stand at the PC is fetched, whatever stands after them (R53). -/
theorem fetch_of_instructionAtPc (hm : m.WF) (h : InstructionAtPc m i s) : fetch m s = .ok i := by
  obtain ⟨hlow, hhigh, hbytes⟩ := h
  have hpos := i.opcode.need_pos
  have hfour := i.opcode.need_le_four
  refine fetch_of_decode_ok (fetchable_iff.mpr ⟨hlow, by omega⟩)
    (decode_eq_ok_iff.mpr ⟨hm.recognise_byteOf i.opcode, List.ext_getElem? fun k => ?_⟩)
  by_cases hk : k < i.opcode.need
  · have hcell : k < 4 ∧ s.pc.toNat + k < Config.memSize := ⟨by omega, by rw [Config.memSize]; omega⟩
    rw [List.getElem?_take_of_lt hk, List.getElem?_take_of_lt hk, hbytes k hk, window, bytesAt_getElem?, if_pos hcell,
      cellAt]
  · rw [List.getElem?_take_eq_none (by omega), List.getElem?_take_eq_none (by omega)]

/-- A byte that is no operation's is not fetched as one, wherever it stands (R57, R102). -/
theorem fetch_of_illegalOpcode (hlow : 8 ≤ s.pc.toNat) (hhigh : s.pc.toNat ≤ 255)
    (hop : ∀ op, m.byteOf op ≠ cellAt s s.pc.toNat) : fetch m s = .error .illegalOpcode := by
  have hd : decode m (window s) = .error .illegalOpcode := by
    rw [window_eq_cons hhigh]
    exact (illegalOpcodeRejected m _ _).mpr hop
  exact fetch_of_decode_error (fetchable_iff.mpr ⟨hlow, hhigh⟩) hd

/-- Why a fetch fails, in terms of the cells of memory: each disjunct is one row of R100. -/
theorem fetch_error_reason {k : FaultKind} (h : fetch m s = .error k) :
    (k = .fetchOutOfBounds ∧ (s.pc.toNat < 8 ∨ 255 < s.pc.toNat ∨
        ∃ op, m.byteOf op = cellAt s s.pc.toNat ∧ 255 < s.pc.toNat + op.need - 1)) ∨
      (k = .illegalOpcode ∧ ∀ op, m.byteOf op ≠ cellAt s s.pc.toNat) := by
  obtain ⟨hguard, rfl⟩ | ⟨hguard, e, hd, rfl⟩ := fetch_error h
  · have hpc : ¬(8 ≤ s.pc.toNat ∧ s.pc.toNat ≤ 255) := by
      rw [← fetchable_iff, hguard]
      exact Bool.false_ne_true
    exact .inl ⟨rfl, by omega⟩
  · obtain ⟨-, hhigh⟩ := fetchable_iff.mp hguard
    rw [window_eq_cons hhigh] at hd
    obtain ⟨hnil, -⟩ | ⟨b, rest, hcons, hop, rfl⟩ | ⟨op, rest, hcons, hshort, rfl⟩ := decode_error hd
    · cases hnil
    · obtain ⟨rfl, -⟩ := List.cons.inj hcons
      exact .inr ⟨rfl, hop⟩
    · obtain ⟨hop, rfl⟩ := List.cons.inj hcons
      rw [length_bytesAt, Config.memSize] at hshort
      have hfour := op.need_le_four
      exact .inl ⟨rfl, .inr (.inr ⟨op, hop.symm, by omega⟩)⟩

end Fetch

/-- Settles O25, by the fetch guard. -/
theorem fetchGuardFaults : Obligations.FetchGuardFaults := fun _ _ => cycleFaults_of_pc_outside

/-- Settles O26: the decoder rejects the byte before it needs another. -/
theorem illegalOpcodeFaults : Obligations.IllegalOpcodeFaults := fun _ _ hfetch hlow hhigh hop =>
  cycleFaults_of_fetch_error hfetch (fetch_of_illegalOpcode hlow hhigh hop)

/-- Settles O27, by the operand-fetch bound; the table of needed bytes is the definition's. -/
theorem operandBoundFaults : Obligations.OperandBoundFaults := by
  refine ⟨fun p s op hm hfetch hlow hhigh hop hneed => ?_, fun op => by cases op <;> rfl⟩
  exact cycleFaults_of_fetch_error hfetch (fetch_of_need_gt hm hlow hhigh hop (by omega))

/-- Settles O20: what decodes at a fetchable PC is fetched, and a fetched instruction is executed and counted. -/
theorem stepRunsDecoded : Obligations.StepRunsDecoded := by
  refine ⟨fun s i hs hlow hhigh hd => ?unbounded, fun p s i ⟨hs, hb⟩ hlow hhigh hd => ?counted⟩
  case unbounded =>
    have hf := fetch_of_decode_ok (fetchable_iff.mpr ⟨hlow, hhigh⟩) hd
    obtain ⟨t, ht, hc⟩ := cycle_of_fetch (p := defaultParams) hs nofun hf
    rw [step, hc, ht, countStep_unbounded t rfl]
  case counted => exact cycle_of_fetch hs hb (fetch_of_decode_ok (fetchable_iff.mpr ⟨hlow, hhigh⟩) hd)

/-- Settles O21, by `fetch_of_instructionAtPc`. -/
theorem cycleRunsInstructionAtPc : Obligations.CycleRunsInstructionAtPc := fun _ _ _ hm ⟨hs, hb⟩ hi =>
  cycle_of_fetch hs hb (fetch_of_instructionAtPc hm hi)

/-- A word placed after reset is what the first fetch sees: its four bytes stand at cells 8 to 11. -/
theorem window_withFetchWord_reset (nbits w : Nat) :
    window (State.reset.withFetchWord nbits w) = bytesOfTableWord nbits w :=
  bytesAt_writeBytes (a := 8) (bs := bytesOfTableWord nbits w) (by decide : 8 + 4 ≤ Config.memSize)

theorem decodeTableWord_eq_some {nbits w : Nat} {i : Instr} :
    decodeTableWord nbits w = some i ↔ decode defaultOpMap (bytesOfTableWord nbits w) = .ok i := by
  unfold decodeTableWord
  split <;> simp_all

/-- Settles O22: the placed word is what the step decodes, and the step is the execution of what it decodes. -/
theorem placedWordRuns : Obligations.PlacedWordRuns := by
  intro nbits w i hw
  obtain ⟨t, ht⟩ := exec_answers i (State.reset.withFetchWord nbits w)
  refine ⟨t, ht, ?_⟩
  rw [← ht]
  refine stepRunsDecoded.1 _ i rfl (by decide : 8 ≤ Config.resetPc.toNat) (by decide : Config.resetPc.toNat ≤ 255) ?_
  rw [window_withFetchWord_reset]
  exact decodeTableWord_eq_some.mp hw

end Sys2Proof.Machine
end

section
/-! SUPPORT. The step (R70 to R74): it answers at every state, and how it can end FAULTED or HALTED, each said once; then the
statements about faults, the end of a run by HALT, and the step counter. -/

namespace Sys2Proof.Machine

section Outcomes
variable {p : Params} {s t : State}

/-- A spent budget is found before anything is fetched (R74, R107). -/
theorem cycle_of_budgetSpent (hs : s.status = .running) (hb : p.maxSteps = some s.steps) :
    cycle p s = .next (s.raise .budgetExhausted) := by
  simp [cycle, hs, budgetSpent_iff.mpr hb]

theorem cycle_answers (p : Params) (s : State) : ∃ t, cycle p s = .next t := by
  by_cases hs : s.status = .running
  · by_cases hb : p.maxSteps = some s.steps
    · exact ⟨_, cycle_of_budgetSpent hs hb⟩
    · cases hf : fetch p.opmap s with
      | error k => exact ⟨_, cycle_of_fetch_error hs hb hf⟩
      | ok i =>
        obtain ⟨t, -, ht⟩ := cycle_of_fetch hs hb hf
        exact ⟨_, ht⟩
  · exact ⟨s, cycle_terminal hs⟩

/-- A step that ends FAULTED took one fault and did nothing else, and the fault is the budget's, the fetch's, or one with its reason
in the fetched instruction. -/
theorem cycle_faulted (hs : s.status = .running) (h : cycle p s = .next t) (ht : t.status = .faulted) :
    ∃ k, t = s.raise k ∧ ((k = .budgetExhausted ∧ p.maxSteps = some s.steps) ∨
      p.maxSteps ≠ some s.steps ∧ (fetch p.opmap s = .error k ∨ ∃ i, fetch p.opmap s = .ok i ∧ ExecFaultReason i s k)) := by
  obtain ⟨hb, rfl⟩ | ⟨hb, ⟨k, hf, rfl⟩ | ⟨i, u, hf, hu, rfl⟩⟩ := cycle_running hs h
  · exact ⟨_, rfl, .inl ⟨rfl, hb⟩⟩
  · exact ⟨k, rfl, .inr ⟨hb, .inl hf⟩⟩
  · rw [countStep_status] at ht
    obtain ⟨k, rfl, hreason⟩ := exec_faulted hs hu ht
    exact ⟨k, countStep_faulted rfl, .inr ⟨hb, .inr ⟨i, hf, hreason⟩⟩⟩

/-- BudgetExhausted is taken for a spent budget only (R106). -/
theorem maxSteps_of_budgetExhausted (hs : s.status = .running) (h : cycle p s = .next t) (ht : t.status = .faulted)
    (hk : t.cause = some .budgetExhausted) : p.maxSteps = some s.steps := by
  obtain ⟨k, rfl, hreason⟩ := cycle_faulted hs h ht
  obtain rfl : k = .budgetExhausted := Option.some.inj hk
  obtain ⟨-, hb⟩ | ⟨-, hf | ⟨i, -, hi⟩⟩ := hreason
  · exact hb
  · exact absurd (fetch_error_kind hf) (by decide)
  · cases hi

/-- An instruction that halts is HALT (R80). -/
theorem exec_halted {i : Instr} (hs : s.status = .running) (h : exec i s = .next t) (ht : t.status = .halted) :
    i = .halt ∧ t = s.halt := by
  obtain ⟨k, rfl⟩ | hhalt | ⟨v, rfl⟩ | ⟨d, x, v, rfl⟩ | ⟨reg, a, r, -, -, -, rfl⟩ := exec_cases h
  · cases ht
  · exact hhalt
  all_goals simp [hs] at ht

/-- A step that ends HALTED fetched HALT and executed it. -/
theorem cycle_halted (hs : s.status = .running) (h : cycle p s = .next t) (ht : t.status = .halted) :
    fetch p.opmap s = .ok .halt ∧ t = countStep p s.halt := by
  obtain ⟨-, rfl⟩ | ⟨-, ⟨k, -, rfl⟩ | ⟨i, u, hf, hu, rfl⟩⟩ := cycle_running hs h
  · cases ht
  · cases ht
  · rw [countStep_status] at ht
    obtain ⟨rfl, rfl⟩ := exec_halted hs hu ht
    exact ⟨hf, rfl⟩

/-- HALT is fetched at its opcode byte only (R54). -/
theorem cellAt_of_fetch_halt {m : OpMap} (h : fetch m s = .ok .halt) :
    cellAt s s.pc.toNat = Config.opHalt ∧ 8 ≤ s.pc.toNat ∧ s.pc.toNat ≤ 255 := by
  obtain ⟨hguard, hd⟩ := fetch_ok h
  obtain ⟨hlow, hhigh⟩ := fetchable_iff.mp hguard
  obtain ⟨-, hbytes⟩ := decode_eq_ok_iff.mp hd
  rw [window_eq_cons hhigh] at hbytes
  exact ⟨(List.cons.inj hbytes).1, hlow, hhigh⟩

end Outcomes

/-- Settles O23, by `cycle_answers` and `exec_answers`. -/
theorem everyStepAnswersNext : Obligations.EveryStepAnswersNext := ⟨cycle_answers, exec_answers⟩

/-- Settles O24: the budget is checked first, and nothing else raises its fault. -/
theorem spentBudgetFaults : Obligations.SpentBudgetFaults := by
  refine ⟨fun p s hs hb => ⟨_, cycle_of_budgetSpent hs hb, faultTaken_raise _ s⟩, fun p s t ⟨hs, hb⟩ h ht hk => ?_⟩
  exact hb (maxSteps_of_budgetExhausted hs h ht hk)

/-- Settles O30, by the three ways a step ends FAULTED, and for the last two the reasons of the fetch and of the instruction. -/
theorem faultsOnlyForTheirReason : Obligations.FaultsOnlyForTheirReason := by
  intro p s t hs h ht
  obtain ⟨k, rfl, ⟨rfl, hb⟩ | ⟨-, hf | ⟨i, hf, hi⟩⟩⟩ := cycle_faulted hs h ht
  · exact .inl ⟨rfl, hb⟩
  · obtain ⟨rfl, hpc⟩ | ⟨rfl, hop⟩ := fetch_error_reason hf
    · exact .inr (.inl ⟨rfl, hpc⟩)
    · exact .inr (.inr (.inl ⟨rfl, hop⟩))
  · refine .inr (.inr (.inr ⟨i, hf, ?_⟩))
    cases hi with
    | invalidRegister hmem hn => exact .inl ⟨rfl, _, hmem, hn⟩
    | loadOutside _ ha => exact .inr (.inl ⟨rfl, _, _, ha, .inl rfl⟩)
    | storeOutside _ ha => exact .inr (.inl ⟨rfl, _, _, ha, .inr rfl⟩)
    | divByZero _ hr hz => exact .inr (.inr ⟨rfl, _, _, _, hr, hz, .inl rfl⟩)
    | remByZero _ hr hz => exact .inr (.inr ⟨rfl, _, _, _, hr, hz, .inr rfl⟩)

/-- Settles O31: by `cycle_faulted` such a step is one `State.raise`. -/
theorem faultChangesOnlyStatusAndCause : Obligations.FaultChangesOnlyStatusAndCause := by
  intro p s t hs h ht
  obtain ⟨k, rfl, -⟩ := cycle_faulted hs h ht
  exact ⟨k, faultTaken_raise k s⟩

/-- Settles O32, by `cycle_halted`. -/
theorem haltedOnlyByHalt : Obligations.HaltedOnlyByHalt := by
  intro p s t hs h ht
  obtain ⟨hf, rfl⟩ := cycle_halted hs h ht
  obtain ⟨hop, hlow, hhigh⟩ := cellAt_of_fetch_halt hf
  exact ⟨hop, hlow, hhigh, by simp, by simp, by simp, fun a => by simp, by simp⟩

/-- Settles O43: a fault leaves the counter, and a completed instruction is counted where there is a budget. -/
theorem stepsCountsCompleted : Obligations.StepsCountsCompleted := by
  intro p s t hs h
  refine ⟨fun hp ht => ?completed, fun ht => ?faulted, fun hp => ?unbounded⟩
  case completed =>
    obtain ⟨-, rfl⟩ | ⟨-, ⟨k, -, rfl⟩ | ⟨i, u, -, hu, rfl⟩⟩ := cycle_running hs h
    · exact absurd rfl ht
    · exact absurd rfl ht
    · rw [countStep_steps hp (countStep_status p u ▸ ht), exec_steps hu]
  case faulted =>
    obtain ⟨k, rfl, -⟩ := cycle_faulted hs h ht
    rfl
  case unbounded =>
    obtain ⟨-, rfl⟩ | ⟨-, ⟨k, -, rfl⟩ | ⟨i, u, -, hu, rfl⟩⟩ := cycle_running hs h
    · rfl
    · rfl
    · rw [countStep_unbounded u hp, exec_steps hu]

end Sys2Proof.Machine
end

section
/-! SUPPORT. What every step keeps: the invariant of the machine, the budget, and the Program Segment. -/

namespace Sys2Proof.Machine

section Invariant
variable {p : Params} {i : Instr} {s t : State}

/-- Taking a fault sets STATUS and CAUSE together (R108). -/
theorem inv_raise (k : FaultKind) (h : s.mem.wf = true) : (s.raise k).Inv :=
  ⟨h, by simp⟩

theorem cause_of_inv (h : s.Inv) (hs : s.status = .running) : s.cause = none := by
  obtain ⟨-, hcause⟩ := h
  simpa [hs] using hcause

/-- A state that goes on or halts keeps the invariant where its CAUSE is still None. -/
theorem inv_of_not_faulted (hm : t.mem.wf = true) (hc : t.cause = none) (ht : t.status ≠ .faulted) : t.Inv :=
  ⟨hm, by simp [hc, ht]⟩

/-- Every instruction keeps the invariant at a RUNNING state: a fault sets CAUSE, everything else leaves it, and a STORE keeps
memory canonical. -/
theorem exec_inv (hs : s.status = .running) (hinv : s.Inv) (h : exec i s = .next t) : t.Inv := by
  have hc := cause_of_inv hinv hs
  obtain ⟨hm, -⟩ := hinv
  obtain ⟨k, rfl⟩ | ⟨-, rfl⟩ | ⟨v, rfl⟩ | ⟨d, x, v, rfl⟩ | ⟨reg, a, r, -, -, -, rfl⟩ := exec_cases h
  · exact inv_raise k hm
  · exact inv_of_not_faulted hm hc (by simp)
  · exact inv_of_not_faulted hm hc (by simp [hs])
  · exact inv_of_not_faulted (by simpa using hm) (by simpa using hc) (by simp [hs])
  · exact inv_of_not_faulted (Memory.wf_write a _ hm) hc (by simp [hs])

theorem inv_countStep (h : s.Inv) : (countStep p s).Inv := by
  simpa only [State.Inv, countStep_mem, countStep_status, countStep_cause] using h

theorem cycle_inv (hinv : s.Inv) (h : cycle p s = .next t) : t.Inv := by
  obtain ⟨-, rfl⟩ | ⟨-, k, rfl⟩ | ⟨hs, -, i, u, -, hu, rfl⟩ := cycle_cases h
  · exact hinv
  · exact inv_raise k hinv.1
  · exact inv_countStep (exec_inv hs hinv hu)

end Invariant

/-- Settles O34: `cycle_inv`, of which `step` is the case of the default parameters. -/
theorem invariantKept : Obligations.InvariantKept :=
  ⟨fun _ _ hinv h => cycle_inv hinv h, fun _ _ _ hinv h => cycle_inv hinv h⟩

/-- Settles O35: CAUSE is None at the start, and the memory is empty or made from the image. -/
theorem invariantAtReset : Obligations.InvariantAtReset := by
  refine ⟨inv_of_not_faulted State.reset_mem_wf rfl nofun, fun image s h => ?_⟩
  obtain ⟨hlen, hs⟩ := Option.ite_none_right_eq_some.mp h
  obtain rfl := Option.some.inj hs
  exact inv_of_not_faulted (Memory.wf_ofBytes image hlen) rfl nofun

section Budget
variable {p : Params} {s t : State}

theorem countStep_steps_cases (p : Params) (s : State) :
    (countStep p s).steps = s.steps ∨ (countStep p s).steps = s.steps + 1 := by
  unfold countStep
  split
  exacts [.inl rfl, .inl rfl, .inr rfl]

/-- A step counts at most one instruction, and none where the budget is spent. -/
theorem cycle_steps (h : cycle p s = .next t) : t.steps = s.steps ∨ p.maxSteps ≠ some s.steps ∧ t.steps = s.steps + 1 := by
  obtain ⟨-, rfl⟩ | ⟨-, k, rfl⟩ | ⟨-, hb, i, u, -, hu, rfl⟩ := cycle_cases h
  · exact .inl rfl
  · exact .inl rfl
  · have hcount := countStep_steps_cases p u
    rw [exec_steps hu] at hcount
    exact hcount.imp_right (And.intro hb)

end Budget

/-- Settles O36, by `cycle_steps`. -/
theorem budgetInvariantKept : Obligations.BudgetInvariantKept := by
  intro p s t hle h n hn
  have hs := hle n hn
  obtain ht | ⟨hb, ht⟩ := cycle_steps h
  · omega
  · have hne : n ≠ s.steps := fun e => hb (e ▸ hn)
    omega

section ProgramSegment
variable {p : Params} {s t : State} {a : Byte}

/-- No step changes a cell outside the Data Segment (R33, R36). -/
theorem cycle_read (ha : 8 ≤ a.toNat) (h : cycle p s = .next t) : t.mem.read a = s.mem.read a := by
  obtain ⟨-, rfl⟩ | ⟨-, k, rfl⟩ | ⟨-, -, i, u, -, hu, rfl⟩ := cycle_cases h
  · rfl
  · rfl
  · rw [countStep_mem]
    exact (exec_read hu).resolve_right fun ⟨hlt, _⟩ => by omega

end ProgramSegment

/-- What every step keeps, every run keeps. -/
theorem cycles_induction {p : Params} {P : State → Prop} {n : Nat} {s t : State}
    (hstep : ∀ s t, P s → cycle p s = .next t → P t) (hs : P s) (h : cycles p n s = .next t) : P t := by
  induction n generalizing s with
  | zero => cases h; exact hs
  | succ n ih =>
    obtain ⟨u, hu⟩ := cycle_answers p s
    rw [cycles_succ hu] at h
    exact ih (hstep s u hs hu) h

/-- Settles O37, by `cycle_read` for each step of the run. -/
theorem programSegmentConstant : Obligations.ProgramSegmentConstant := fun _ _ s _ h a ha =>
  cycles_induction (P := fun u => u.mem.read a = s.mem.read a) (fun _ _ hu hstep => (cycle_read ha hstep).trans hu) rfl h

end Sys2Proof.Machine
end

section
/-! SUPPORT. Runs (R70, R73, R123): a terminal state stays, a run has one end, and a budget makes every run end. -/

namespace Sys2Proof.Machine

section Runs
variable {p : Params} {s t : State}

/-- A state that a step answers unchanged is what any number of steps answers. -/
theorem cycles_of_cycle_self (h : cycle p s = .next s) (n : Nat) : cycles p n s = .next s := by
  induction n with
  | zero => rfl
  | succ n ih => rw [cycles_succ h, ih]

theorem cycles_terminal (h : s.status ≠ .running) (n : Nat) : cycles p n s = .next s :=
  cycles_of_cycle_self (cycle_terminal h) n

/-- A run goes on from the state its first steps reach. -/
theorem cycles_add {n : Nat} (h : cycles p n s = .next t) (k : Nat) : cycles p (n + k) s = cycles p k t := by
  induction n generalizing s with
  | zero => cases h; rw [Nat.zero_add]
  | succ n ih =>
    obtain ⟨u, hu⟩ := cycle_answers p s
    rw [cycles_succ hu] at h
    rw [Nat.add_right_comm, cycles_succ hu, ih h]

/-- A terminal state that some steps reach is the one that any more steps reach. -/
theorem cycles_eq_of_le {t' : State} {n n' : Nat} (hle : n ≤ n') (h : cycles p n s = .next t) (h' : cycles p n' s = .next t')
    (ht : t.status ≠ .running) : t = t' := by
  obtain ⟨k, rfl⟩ := Nat.exists_eq_add_of_le hle
  rw [cycles_add h, cycles_terminal ht] at h'
  exact Host.Outcome.next.inj h'

/-- A budget of which `k` instructions are left ends the run in at most `k` completed instructions and one fault (R124). -/
theorem run_ends_of_budget {N k : Nat} (hp : p.maxSteps = some N) (hs : s.status = .running) (hk : s.steps + k = N) :
    ∃ n t, n ≤ k + 1 ∧ cycles p n s = .next t ∧ t.terminal = true ∧ t.steps ≤ N := by
  induction k generalizing s with
  | zero =>
    have hb : p.maxSteps = some s.steps := by rw [hp, ← hk, Nat.add_zero]
    exact ⟨1, s.raise .budgetExhausted, Nat.le_refl _, cycles_succ (cycle_of_budgetSpent hs hb), rfl, Nat.le.intro hk⟩
  | succ k ih =>
    obtain ⟨t, h⟩ := cycle_answers p s
    by_cases ht : t.status = .running
    · obtain ⟨hcount, -⟩ := stepsCountsCompleted p s t hs h
      have hsteps : t.steps = s.steps + 1 := hcount (by simp [hp]) (by simp [ht])
      obtain ⟨n, u, hn, hu, hterm, hle⟩ := ih ht (by omega)
      exact ⟨n + 1, u, by omega, (cycles_succ h).trans hu, hterm, hle⟩
    · have hwithin : WithinBudget p s := fun M hM => by
        obtain rfl : N = M := Option.some.inj (hp.symm.trans hM)
        omega
      exact ⟨1, t, by omega, cycles_succ h, State.terminal_iff.mpr ht, budgetInvariantKept p s t hwithin h N hp⟩

/-- A JUMP to its own address, executed with no budget, changes nothing. -/
theorem cycle_jump_self {target : Byte} (hp : p.maxSteps = none) (hm : p.opmap.WF) (hs : s.status = .running)
    (htarget : target.toNat = s.pc.toNat) (hi : InstructionAtPc p.opmap (.jump target) s) : cycle p s = .next s := by
  obtain ⟨t, ht, hc⟩ := cycle_of_fetch hs (by simp [hp]) (fetch_of_instructionAtPc hm hi)
  have hpc : zext9 target = s.pc := BitVec.eq_of_toNat_eq ((zext9_toNat target).trans htarget)
  have hself : s = t := by
    cases ht
    rw [hpc]
    rfl
  rw [hc, countStep_unbounded t hp, hself]

end Runs

/-- Settles O33: a terminal state takes no step, and the reset there is `State.afterReset`. -/
theorem terminalStatesStay : Obligations.TerminalStatesStay := fun _ n s hs =>
  ⟨cycles_terminal hs n, s.afterReset, restart_some.mpr ⟨hs, rfl⟩, rfl, rfl, sameMemory_refl s⟩

/-- Settles O45: of the two ends of a run, the one reached in fewer steps stays. -/
theorem runResultDetermined : Obligations.RunResultDetermined := by
  rintro p s t t' ⟨⟨n, hn⟩, ht⟩ ⟨⟨n', hn'⟩, ht'⟩
  have hend := State.terminal_iff.mp ht
  refine ⟨?_, runResult_some.mpr ⟨hend, rfl⟩⟩
  obtain hle | hle := Nat.le_total n n'
  · exact cycles_eq_of_le hle hn hn' hend
  · exact (cycles_eq_of_le hle hn' hn (State.terminal_iff.mp ht')).symm

section WhileRunning
variable {s : State}

theorem not_terminal_of_running (h : s.status = .running) : ¬s.terminal = true := fun ht => State.terminal_iff.mp ht h

theorem hostWrite_running (h : s.status = .running) (a v : Byte) : hostWrite a v s = none := if_neg (not_terminal_of_running h)
theorem hostRead_running (h : s.status = .running) (a : Byte) : hostRead a s = none := if_neg (not_terminal_of_running h)
theorem restart_running (h : s.status = .running) : restart s = none := if_neg (not_terminal_of_running h)
theorem runResult_running (h : s.status = .running) : runResult s = none := if_neg (not_terminal_of_running h)

end WhileRunning

/-- Settles O44: with a budget `run_ends_of_budget`, without one `cycle_jump_self`, and no budget is ever spent. -/
theorem budgetEndsEveryRun : Obligations.BudgetEndsEveryRun := by
  refine ⟨fun p N s hp hs hle => ?ends, fun p target s hp hm hs htarget hi n => ?endless, fun p s t hp hs h ht hk => ?unspent⟩
  case ends => exact run_ends_of_budget hp hs (Nat.add_sub_of_le hle)
  case endless =>
    exact ⟨cycles_of_cycle_self (cycle_jump_self hp hm hs htarget hi) n, runResult_running hs, hostRead_running hs⟩
  case unspent =>
    have hb := maxSteps_of_budgetExhausted hs h ht hk
    simp [hp] at hb

end Sys2Proof.Machine
end

section
/-! SUPPORT. The host interface (R120 to R123): its moves between runs, and STATUS and CAUSE at any time. -/

namespace Sys2Proof.Machine

/-- Settles O46, field by field. -/
theorem resetState : Obligations.ResetState := ⟨rfl, rfl, rfl, rfl, rfl, rfl, fun _ => rfl⟩

/-- Settles O48: a reset between runs is `State.afterReset`. -/
theorem resetKeepsMemory : Obligations.ResetKeepsMemory := fun s hs =>
  ⟨s.afterReset, restart_some.mpr ⟨hs, rfl⟩, rfl, rfl, rfl, rfl, rfl, rfl, sameMemory_refl s⟩

/-- Settles O49: every move answers none while RUNNING; between runs a write is `Memory.write` of one cell. -/
theorem hostMovesOnlyBetweenRuns : Obligations.HostMovesOnlyBetweenRuns := by
  refine ⟨fun s a v hs => ?running, fun s a v hs => ⟨?write, hostRead_some.mpr ⟨hs, rfl⟩, runResult_some.mpr ⟨hs, rfl⟩⟩⟩
  case running => exact ⟨hostWrite_running hs a v, hostRead_running hs a, restart_running hs, runResult_running hs⟩
  case write =>
    refine ⟨_, hostWrite_some.mpr ⟨hs, rfl⟩, ?_, fun b hb => ?_, rfl, rfl, rfl, rfl, rfl, rfl⟩
    · rw [State.setMem_mem, Memory.read_write, if_pos rfl]
    · rw [State.setMem_mem, Memory.read_write, if_neg hb]

theorem Status.code_ne_three (st : Status) : st.code ≠ 3 := by cases st <;> decide

theorem causeCode_ne_seven (c : Option FaultKind) : causeCode c ≠ 7 := by
  cases c with
  | none => decide
  | some k => cases k <;> decide

/-- Settles O50: the host reads the two fields; a RUNNING step that does not go on ends by `cycle_halted` or `cycle_faulted`. -/
theorem hostReadsStatusAtAnyTime : Obligations.HostReadsStatusAtAnyTime := by
  refine ⟨fun s => ⟨rfl, rfl, Status.code_ne_three _, causeCode_ne_seven _⟩, fun s t a v h => ?write, fun s t h => ?reset,
    fun p s t h hs => ?terminal, fun p s t h hs ht => ?ends⟩
  case write =>
    obtain ⟨-, rfl⟩ := hostWrite_some.mp h
    exact ⟨rfl, rfl⟩
  case reset =>
    obtain ⟨-, rfl⟩ := restart_some.mp h
    exact ⟨rfl, rfl⟩
  case terminal =>
    rw [cycle_terminal hs] at h
    cases h
    exact ⟨rfl, rfl⟩
  case ends =>
    cases hst : t.status with
    | running => exact absurd hst ht
    | halted =>
      obtain ⟨-, rfl⟩ := cycle_halted hs h hst
      exact .inl ⟨hst, countStep_cause p s.halt⟩
    | faulted =>
      obtain ⟨k, rfl, -⟩ := cycle_faulted hs h hst
      exact .inr ⟨hst, k, rfl⟩

end Sys2Proof.Machine
end

section
/-! SUPPORT. Where the PC goes (R15, R92 to R95): a branch in natural numbers, then the statement about every instruction. -/

namespace Sys2Proof.Machine

/-- A branch from a slot within memory moves the PC by the slot's width, and by the offset where its condition `P` holds. -/
theorem branchIf_pc_toNat {op : Opcode} {cond : Byte → Bool} {reg offset : Byte} {s t : State} {P : Gpr → Prop}
    [DecidablePred P] (h : branchIf op cond reg offset s = t) (ht : t.status = .running)
    (hslot : s.pc.toNat + op.width ≤ 256) (hP : ∀ r, cond (s.gpr r) = true ↔ P r) :
    ∃ r, Names reg r ∧ t.pc.toNat = s.pc.toNat + op.width + if P r then offset.toNat else 0 := by
  obtain ⟨-, rfl⟩ | ⟨r, hr, rfl⟩ := branchIf_cases h
  · cases ht
  · refine ⟨r, names_iff.mpr hr, ?_⟩
    have hwidth : 0 < op.width := by cases op <;> decide
    by_cases hc : P r
    · rw [if_pos hc, if_pos ((hP r).mpr hc)]
      exact branchTarget_toNat hslot
    · rw [if_neg hc, if_neg (mt (hP r).mp hc)]
      exact npc_toNat (by omega)

/-- Settles O41: the fetched instruction is the one executed, its slot lies in memory, and no sum from there wraps. -/
theorem pcAdvancesExactly : Obligations.PcAdvancesExactly := by
  intro p s t i hm ⟨hs, hb⟩ hi h ht
  obtain ⟨u, hu, hc⟩ := cycle_of_fetch hs hb (fetch_of_instructionAtPc hm hi)
  obtain rfl := Host.Outcome.next.inj (hc.symm.trans h)
  obtain ⟨-, hhigh, -⟩ := hi
  rw [countStep_status] at ht
  simp only [countStep_pc]
  have hpos := i.opcode.need_pos
  have sequential (hnext : u.pc = npc s i.opcode) (hwidth : i.opcode.width = 3) : u.pc.toNat = s.pc.toNat + 3 := by
    rw [hnext, npc_toNat (by omega), hwidth]
  cases i with
  | halt => cases hu; cases ht
  | jump target => cases hu; exact zext9_toNat target
  | beqz reg offset => exact branchIf_pc_toNat (Host.Outcome.next.inj hu) ht hhigh fun r => isZero_iff
  | beq reg constant offset => exact branchIf_pc_toNat (Host.Outcome.next.inj hu) ht hhigh fun r => isEqual_iff
  | load =>
    obtain ⟨-, rfl⟩ | ⟨d, -, ⟨-, rfl⟩ | ⟨-, rfl⟩⟩ := execLoad_cases hu
    exacts [(nomatch ht), (nomatch ht), sequential rfl rfl]
  | store =>
    obtain ⟨-, rfl⟩ | ⟨r, -, ⟨-, rfl⟩ | ⟨-, rfl⟩⟩ := execStore_cases hu
    exacts [(nomatch ht), (nomatch ht), sequential rfl rfl]
  | add | sub | mul | div | rem =>
    obtain ⟨-, rfl⟩ | ⟨d, r, -, -, ⟨k, -, rfl⟩ | ⟨v, -, rfl⟩⟩ := arithRegister_cases (Host.Outcome.next.inj hu)
    exacts [(nomatch ht), (nomatch ht), sequential rfl rfl]
  | addi | subi =>
    obtain ⟨-, rfl⟩ | ⟨d, -, ⟨k, -, rfl⟩ | ⟨v, -, rfl⟩⟩ := arithImmediate_cases (Host.Outcome.next.inj hu)
    exacts [(nomatch ht), (nomatch ht), sequential rfl rfl]

end Sys2Proof.Machine
end

section
/-! SUPPORT. What a step depends on (R75): every operation on states that differ at most in the Program Segment answers states that
do, and where the bytes at the PC agree, the same instruction is fetched in both. -/

namespace Sys2Proof.Machine

section SameButProgram
variable {s s' : State}

theorem SameButProgram.pc (h : SameButProgram s s') : s'.pc = s.pc := h.1

theorem SameButProgram.control (h : SameButProgram s s') : SameControl s s' := by
  obtain ⟨-, -, -, hcontrol, -⟩ := h
  exact hcontrol

theorem SameButProgram.gpr (h : SameButProgram s s') (g : Gpr) : s'.gpr g = s.gpr g := by
  obtain ⟨-, hr1, hr2, -⟩ := h
  cases g
  exacts [hr1, hr2]

theorem SameButProgram.read (h : SameButProgram s s') {a : Byte} (ha : a.toNat < 8) : s'.mem.read a = s.mem.read a := by
  obtain ⟨-, -, -, -, hmem⟩ := h
  exact hmem a ha

theorem SameButProgram.npc (h : SameButProgram s s') (op : Opcode) : npc s' op = npc s op := by
  rw [Machine.npc, h.pc, Machine.npc]

theorem SameButProgram.branchTarget (h : SameButProgram s s') (op : Opcode) (offset : Byte) :
    branchTarget s' op offset = branchTarget s op offset := by
  rw [Machine.branchTarget, h.npc, Machine.branchTarget]

/-- LOAD's guard lets only the Data Segment be seen (R37). -/
theorem SameButProgram.memRead (h : SameButProgram s s') (a : Byte) : memRead s' a = memRead s a := by
  by_cases ha : 8 ≤ a.toNat
  · rw [memRead_error.mpr ⟨ha, rfl⟩, memRead_error.mpr ⟨ha, rfl⟩]
  · rw [memRead_ok.mpr ⟨by omega, rfl⟩, memRead_ok.mpr ⟨by omega, rfl⟩, h.read (by omega)]

theorem SameButProgram.raise (h : SameButProgram s s') (k : FaultKind) : SameButProgram (s.raise k) (s'.raise k) := by
  obtain ⟨hpc, hr1, hr2, ⟨-, -, hsteps⟩, hmem⟩ := h
  exact ⟨hpc, hr1, hr2, ⟨rfl, rfl, hsteps⟩, hmem⟩

theorem SameButProgram.halt (h : SameButProgram s s') : SameButProgram s.halt s'.halt := by
  obtain ⟨hpc, hr1, hr2, ⟨-, hcause, hsteps⟩, hmem⟩ := h
  exact ⟨hpc, hr1, hr2, ⟨rfl, hcause, hsteps⟩, hmem⟩

theorem SameButProgram.setPc (h : SameButProgram s s') (v : PcWord) : SameButProgram (s.setPc v) (s'.setPc v) := by
  obtain ⟨-, hr1, hr2, hcontrol, hmem⟩ := h
  exact ⟨rfl, hr1, hr2, hcontrol, hmem⟩

theorem SameButProgram.advance (h : SameButProgram s s') (op : Opcode) : SameButProgram (s.advance op) (s'.advance op) := by
  rw [State.advance, State.advance, h.npc]
  exact h.setPc _

theorem SameButProgram.setGpr (h : SameButProgram s s') (d : Gpr) (v : Byte) :
    SameButProgram (s.setGpr d v) (s'.setGpr d v) := by
  obtain ⟨hpc, hr1, hr2, hcontrol, hmem⟩ := h
  cases d
  exacts [⟨hpc, rfl, hr2, hcontrol, hmem⟩, ⟨hpc, hr1, rfl, hcontrol, hmem⟩]

theorem SameButProgram.write (h : SameButProgram s s') (a v : Byte) :
    SameButProgram (s.setMem (s.mem.write a v)) (s'.setMem (s'.mem.write a v)) := by
  obtain ⟨hpc, hr1, hr2, hcontrol, hmem⟩ := h
  refine ⟨hpc, hr1, hr2, hcontrol, fun b hb => ?_⟩
  rw [State.setMem_mem, State.setMem_mem, Memory.read_write, Memory.read_write, hmem b hb]

theorem SameButProgram.orRaise {α : Type} (h : SameButProgram s s') (r : Except FaultKind α) {go go' : α → State}
    (hgo : ∀ a, SameButProgram (go a) (go' a)) : SameButProgram (s.orRaise r go) (s'.orRaise r go') := by
  cases r with
  | ok a => exact hgo a
  | error k => exact h.raise k

/-- The step counter and STATUS decide what is counted, and they are the same in both states. -/
theorem SameButProgram.countStep (h : SameButProgram s s') (p : Params) :
    SameButProgram (countStep p s) (countStep p s') := by
  obtain ⟨hpc, hr1, hr2, ⟨hstatus, hcause, hsteps⟩, hmem⟩ := h
  have hcount : (Machine.countStep p s').steps = (Machine.countStep p s).steps := by
    unfold Machine.countStep
    rw [hstatus]
    split <;> simp [hsteps]
  exact ⟨by simpa using hpc, by simpa using hr1, by simpa using hr2,
    ⟨by simpa using hstatus, by simpa using hcause, hcount⟩, by simpa using hmem⟩

end SameButProgram

section SharedOperations
variable {op : Opcode} {f : Byte → Byte → Except FaultKind Byte} {cond : Byte → Bool} {s s' : State}

theorem arithRegister_sameButProgram (h : SameButProgram s s') (reg1 reg2 : Byte) :
    SameButProgram (arithRegister op f reg1 reg2 s) (arithRegister op f reg1 reg2 s') := by
  refine h.orRaise _ fun ⟨d, r⟩ => ?_
  rw [h.gpr, h.gpr]
  exact h.orRaise _ fun v => (h.setGpr d v).advance op

theorem arithImmediate_sameButProgram (h : SameButProgram s s') (reg imm : Byte) :
    SameButProgram (arithImmediate op f reg imm s) (arithImmediate op f reg imm s') := by
  refine h.orRaise _ fun d => ?_
  rw [h.gpr]
  exact h.orRaise _ fun v => (h.setGpr d v).advance op

theorem branchIf_sameButProgram (h : SameButProgram s s') (reg offset : Byte) :
    SameButProgram (branchIf op cond reg offset s) (branchIf op cond reg offset s') := by
  refine h.orRaise _ fun r => ?_
  rw [h.gpr, h.branchTarget]
  split
  exacts [h.setPc _, h.advance op]

theorem memWrite_advance_sameButProgram (h : SameButProgram s s') (a v : Byte) :
    SameButProgram (s.orRaise (memWrite s a v) fun t => t.advance op)
      (s'.orRaise (memWrite s' a v) fun t => t.advance op) := by
  by_cases ha : 8 ≤ a.toNat
  · rw [memWrite_error.mpr ⟨ha, rfl⟩, memWrite_error.mpr ⟨ha, rfl⟩]
    exact h.raise _
  · rw [memWrite_ok.mpr ⟨by omega, rfl⟩, memWrite_ok.mpr ⟨by omega, rfl⟩]
    exact (h.write a v).advance op

/-- No instruction sees the Program Segment. -/
theorem exec_sameButProgram {i : Instr} {t : State} (h : SameButProgram s s') (ht : exec i s = .next t) :
    ∃ t', exec i s' = .next t' ∧ SameButProgram t t' := by
  cases i <;> cases ht <;> refine ⟨_, rfl, ?_⟩
  case halt => exact h.halt
  case jump target => exact h.setPc _
  case load reg addr =>
    refine h.orRaise _ fun d => ?_
    rw [h.memRead]
    exact h.orRaise _ fun v => (h.setGpr d v).advance _
  case store reg addr =>
    refine h.orRaise _ fun r => ?_
    rw [h.gpr]
    exact memWrite_advance_sameButProgram h addr _
  case add | sub | mul | div | rem => exact arithRegister_sameButProgram h _ _
  case addi | subi => exact arithImmediate_sameButProgram h _ _
  case beqz | beq => exact branchIf_sameButProgram h _ _

/-- The same bytes at the same PC are fetched as the same instruction. -/
theorem fetch_congr (m : OpMap) (hpc : s'.pc = s.pc)
    (hcells : ∀ k, k < 4 → s.pc.toNat + k ≤ 255 → cellAt s' (s.pc.toNat + k) = cellAt s (s.pc.toNat + k)) :
    fetch m s' = fetch m s := by
  have hwindow : window s' = window s := List.ext_getElem? fun k => by
    rw [window, window, hpc, bytesAt_getElem?, bytesAt_getElem?]
    split
    · next hk => exact congrArg some (hcells k hk.1 (Nat.le_of_lt_succ hk.2))
    · rfl
  rw [fetch, fetch, hpc, hwindow]

end SharedOperations

/-- Settles O42: the same check of the step decides in both states, and each of its outcomes keeps the relation. -/
theorem stepDependsOnlyOn : Obligations.StepDependsOnlyOn := by
  intro p s s' t h hcells ht
  obtain ⟨hstatus, -, hsteps⟩ := h.control
  have hfetch := fetch_congr p.opmap h.pc hcells
  by_cases hs : s.status = .running
  · have hs' := hstatus.trans hs
    obtain ⟨hb, rfl⟩ | ⟨hb, ⟨k, hf, rfl⟩ | ⟨i, u, hf, hu, rfl⟩⟩ := cycle_running hs ht <;> rw [← hsteps] at hb
    · exact ⟨_, cycle_of_budgetSpent hs' hb, h.raise _⟩
    · exact ⟨_, cycle_of_fetch_error hs' hb (hfetch.trans hf), h.raise k⟩
    · obtain ⟨u', hu', hsame⟩ := exec_sameButProgram h hu
      obtain ⟨v, hv, hc⟩ := cycle_of_fetch hs' hb (hfetch.trans hf)
      obtain rfl := Host.Outcome.next.inj (hu'.symm.trans hv)
      exact ⟨_, hc, hsame.countStep p⟩
  · obtain rfl := Host.Outcome.next.inj ((cycle_terminal hs).symm.trans ht)
    exact ⟨s', cycle_terminal (hstatus ▸ hs), h⟩

end Sys2Proof.Machine
end
